-- ==== Sys2Proof/Word.lean ====
section
/-! DEFINITION. The machine word: "unsigned 16-bit integer; the sole unit of storage, register value, and
instruction encoding" (00_scope.md R8). -/

namespace Sys2Proof

/-- A word (00_scope.md R8, R14): bit 0 is the least significant bit, and no operation reads a word as signed. -/
abbrev Word := BitVec 16

end Sys2Proof
end

