-- ==== Sys2Proof/Config.lean ====
section
/-! DEFINITION. What an implementation fixes, and the free values: what the spec leaves unspecified after a fatal
error. The three opaque constants have no body a proof can see, so a claim about a value drawn from them holds for
every value. -/

namespace Sys2Proof

/-- The reference value of the parameter `MEM_WORDS` (00_scope.md R11: "The reference value for a full DCPU-16
address space is 65536"). `MEM_WORDS` itself is the field `memWords` of the state; this is the value `State.reset`
gives it. DESIGN CHOICE, assumption 3. -/
def Config.referenceMemWords : Nat := 65536

/-- A register's value after a fatal error: draw `draw`, register number `which` (60_exceptions.md R270: "After a
fatal error the values of the registers, SP, PC, O, `skip` and memory are not specified"). A FREE VALUE,
assumption 5. -/
opaque Config.freeWord (draw which : Nat) : Word

/-- The skip flag's value after a fatal error (60_exceptions.md R270). A FREE VALUE, assumption 5. -/
opaque Config.freeBit (draw : Nat) : Bool

/-- The memory's contents after a fatal error, as a list of cells in any order (60_exceptions.md R270). A FREE
VALUE, assumption 5. -/
opaque Config.freeCells (draw : Nat) : List (Nat × Word)

end Sys2Proof
end

