-- ==== Sys2Proof/Syntax.lean ====
section
/-! DEFINITION. The instructions as data: one constructor of `Instr` per row of spec/opcode_table.json, and the
operand classes they take. An instruction here is what its FIRST word says (30_encoding.md R105: "The length is a
function of the first word alone"); its extra words are fetched when its operands are resolved
(40_execution_cycle.md R146). -/

namespace Sys2Proof

/-- The eight general registers A, B, C, X, Y, Z, I, J (10_state.md R30). -/
inductive Reg where
  | a | b | c | x | y | z | i | j
  deriving DecidableEq, Repr

/-- The operand classes, in the order of the table of 30_encoding.md R94. -/
inductive OperandClass where
  /-- 0x00–0x07: the general register itself. -/
  | reg (r : Reg)
  /-- 0x08–0x0f: memory at the address held in the register. -/
  | ind (r : Reg)
  /-- 0x10–0x17: memory at the next word plus the register. -/
  | indexed (r : Reg)
  /-- 0x18: read memory at SP, then increment SP. -/
  | pop
  /-- 0x19: memory at SP. -/
  | peek
  /-- 0x1a: decrement SP, then address that memory cell. -/
  | push
  /-- 0x1b: the SP register itself. -/
  | sp
  /-- 0x1c: the PC register itself. -/
  | pc
  /-- 0x1d: the O register itself. -/
  | o
  /-- 0x1e: memory at the address in the next word. -/
  | indNext
  /-- 0x1f: the next word itself, as an immediate value. -/
  | nextLit
  /-- 0x20–0x3f: an inline literal, 0 to 31. -/
  | lit (n : BitVec 5)
  deriving DecidableEq, Repr

/-- The instruction set (00_scope.md R2; 30_encoding.md R102, R103): the 15 basic opcodes, the two non-basic
instructions, and the undefined non-basic space, which has no operand and whose bits are kept as they are. -/
inductive Instr where
  | set (a b : OperandClass)
  | add (a b : OperandClass)
  | sub (a b : OperandClass)
  | mul (a b : OperandClass)
  | div (a b : OperandClass)
  | mod (a b : OperandClass)
  | shl (a b : OperandClass)
  | shr (a b : OperandClass)
  | and (a b : OperandClass)
  | bor (a b : OperandClass)
  | xor (a b : OperandClass)
  | ife (a b : OperandClass)
  | ifn (a b : OperandClass)
  | ifg (a b : OperandClass)
  | ifb (a b : OperandClass)
  | jsr (b : OperandClass)
  | halt (b : OperandClass)
  | undefinedNonBasic (opcode : BitVec 6) (b : BitVec 6)
  deriving DecidableEq, Repr

/-- The two shapes of an instruction word (30_encoding.md R90 to R93): basic, with an opcode and two operand
classes; non-basic, with a non-basic opcode and one operand; and an undefined non-basic word, whose `b` field is
not decoded (44_nonbasic.md R243). -/
inductive InstrForm where
  | basic (op : BitVec 4) (a b : OperandClass)
  | nonBasic (opcode : BitVec 6) (b : OperandClass)
  | undefined (opcode : BitVec 6) (b : BitVec 6)
  deriving DecidableEq, Repr

end Sys2Proof
end

