-- ==== Sys2Proof/WellFormed.lean ====
section
/-! DEFINITION. The terms of `Instr` that some instruction word stands for. -/

namespace Sys2Proof

/-- The one check the types leave open: the undefined non-basic opcodes are 0x02 to 0x3f (30_encoding.md R103), since
0x00 is HALT and 0x01 is JSR. Every other term of `Instr` is an instruction word's. -/
def Instr.wellFormed : Instr → Bool
  | .undefinedNonBasic opcode _ => 2 ≤ opcode.toNat
  | .set _ _ | .add _ _ | .sub _ _ | .mul _ _ | .div _ _ | .mod _ _ | .shl _ _ | .shr _ _ | .and _ _ | .bor _ _
  | .xor _ _ | .ife _ _ | .ifn _ _ | .ifg _ _ | .ifb _ _ | .jsr _ | .halt _ => true

end Sys2Proof
end

