-- ==== Sys2Proof/Decode.lean ====
section
/-! DEFINITION. The decoder, total on all 65536 words (30_encoding.md R106), and after it the encoder, written from
the same tables. Also what the first word alone says of an instruction: its form, its length, whether it is legal. -/

namespace Sys2Proof

/-! ## Registers and operand classes -/

/-- The register's index, 0 to 7 (10_state.md R30). -/
def Reg.index : Reg → Nat
  | .a => 0 | .b => 1 | .c => 2 | .x => 3 | .y => 4 | .z => 5 | .i => 6 | .j => 7

/-- The register of a three-bit index (30_encoding.md R95). -/
def Reg.ofIndex (n : BitVec 3) : Reg :=
  match n.toNat with
  | 0 => .a | 1 => .b | 2 => .c | 3 => .x | 4 => .y | 5 => .z | 6 => .i | _ => .j

/-- The operand class of a six-bit code: the partition of 30_encoding.md R94, with the register index `c & 0x7` of
R95 and the inline literal `c - 0x20` of R96. -/
def OperandClass.ofCode (c : BitVec 6) : OperandClass :=
  if c.toNat < 0x08 then .reg (Reg.ofIndex (c.setWidth 3))
  else if c.toNat < 0x10 then .ind (Reg.ofIndex (c.setWidth 3))
  else if c.toNat < 0x18 then .indexed (Reg.ofIndex (c.setWidth 3))
  else if c.toNat = 0x18 then .pop
  else if c.toNat = 0x19 then .peek
  else if c.toNat = 0x1a then .push
  else if c.toNat = 0x1b then .sp
  else if c.toNat = 0x1c then .pc
  else if c.toNat = 0x1d then .o
  else if c.toNat = 0x1e then .indNext
  else if c.toNat = 0x1f then .nextLit
  else .lit (c.setWidth 5)

/-- How many extra words the class consumes, `nw(c)` of 30_encoding.md R97. -/
def OperandClass.extraWords : OperandClass → Nat
  | .indexed _ | .indNext | .nextLit => 1
  | .reg _ | .ind _ | .pop | .peek | .push | .sp | .pc | .o | .lit _ => 0

/-- The literal classes 0x1f and 0x20 to 0x3f, which are read-only (30_encoding.md R100). -/
def OperandClass.isLiteral : OperandClass → Bool
  | .nextLit | .lit _ => true
  | .reg _ | .ind _ | .indexed _ | .pop | .peek | .push | .sp | .pc | .o | .indNext => false

/-! ## The instruction word -/

/-- Bits [3:0], the opcode (30_encoding.md R90, R91). -/
def opField (w : Word) : BitVec 4 := w.extractLsb' 0 4

/-- Bits [9:4], operand A's class, or the non-basic opcode (30_encoding.md R90, R93). -/
def aField (w : Word) : BitVec 6 := w.extractLsb' 4 6

/-- Bits [15:10], operand B's class (30_encoding.md R90). -/
def bField (w : Word) : BitVec 6 := w.extractLsb' 10 6

/-- A word with opcode field 0: HALT, JSR, or an undefined non-basic opcode (30_encoding.md R103). -/
def decodeNonBasic (opcode b : BitVec 6) : Instr :=
  if opcode = 0x00#6 then .halt (.ofCode b)
  else if opcode = 0x01#6 then .jsr (.ofCode b)
  else .undefinedNonBasic opcode b

/-- The instruction an instruction word stands for (30_encoding.md R92, R102, R103). Total: every word is an
instruction, the illegal ones among them (R106). -/
def decode (w : Word) : Instr :=
  let a := OperandClass.ofCode (aField w)
  let b := OperandClass.ofCode (bField w)
  match (opField w).toNat with
  | 0x1 => .set a b
  | 0x2 => .add a b
  | 0x3 => .sub a b
  | 0x4 => .mul a b
  | 0x5 => .div a b
  | 0x6 => .mod a b
  | 0x7 => .shl a b
  | 0x8 => .shr a b
  | 0x9 => .and a b
  | 0xa => .bor a b
  | 0xb => .xor a b
  | 0xc => .ife a b
  | 0xd => .ifn a b
  | 0xe => .ifg a b
  | 0xf => .ifb a b
  | _ => decodeNonBasic (aField w) (bField w)

/-! ## The encoder -/

/-- The six-bit code of an operand class (30_encoding.md R94). -/
def OperandClass.code : OperandClass → BitVec 6
  | .reg r => BitVec.ofNat 6 r.index
  | .ind r => BitVec.ofNat 6 (0x08 + r.index)
  | .indexed r => BitVec.ofNat 6 (0x10 + r.index)
  | .pop => 0x18#6
  | .peek => 0x19#6
  | .push => 0x1a#6
  | .sp => 0x1b#6
  | .pc => 0x1c#6
  | .o => 0x1d#6
  | .indNext => 0x1e#6
  | .nextLit => 0x1f#6
  | .lit n => BitVec.ofNat 6 (0x20 + n.toNat)

/-- The instruction's form: which opcode and which operands its word holds (30_encoding.md R102, R103). -/
def Instr.form : Instr → InstrForm
  | .set a b => .basic 0x1#4 a b
  | .add a b => .basic 0x2#4 a b
  | .sub a b => .basic 0x3#4 a b
  | .mul a b => .basic 0x4#4 a b
  | .div a b => .basic 0x5#4 a b
  | .mod a b => .basic 0x6#4 a b
  | .shl a b => .basic 0x7#4 a b
  | .shr a b => .basic 0x8#4 a b
  | .and a b => .basic 0x9#4 a b
  | .bor a b => .basic 0xa#4 a b
  | .xor a b => .basic 0xb#4 a b
  | .ife a b => .basic 0xc#4 a b
  | .ifn a b => .basic 0xd#4 a b
  | .ifg a b => .basic 0xe#4 a b
  | .ifb a b => .basic 0xf#4 a b
  | .halt b => .nonBasic 0x00#6 b
  | .jsr b => .nonBasic 0x01#6 b
  | .undefinedNonBasic opcode b => .undefined opcode b

/-- `w = (b << 10) | (a << 4) | op` (30_encoding.md R91). -/
def joinFields (op : BitVec 4) (a b : BitVec 6) : Word :=
  (b.setWidth 16 <<< 10) ||| (a.setWidth 16 <<< 4) ||| op.setWidth 16

/-- The instruction's first word (30_encoding.md R91). -/
def encodeWord (i : Instr) : Word :=
  match i.form with
  | .basic op a b => joinFields op a.code b.code
  | .nonBasic opcode b => joinFields 0#4 opcode b.code
  | .undefined opcode b => joinFields 0#4 opcode b

/-- The instruction's words in memory order: the instruction word, then operand A's extra word if any, then operand
B's if any (30_encoding.md R98). `extras` holds the extra words in that order. -/
def encode (i : Instr) (extras : List Word) : List Word := encodeWord i :: extras

/-! ## What the first word says -/

/-- How many extra words follow the first word (30_encoding.md R104); an undefined non-basic instruction has no
defined length. -/
def Instr.extraWords (i : Instr) : Option Nat :=
  match i.form with
  | .basic _ a b => some (a.extraWords + b.extraWords)
  | .nonBasic _ b => some b.extraWords
  | .undefined _ _ => none

/-- The length in words (30_encoding.md R104). -/
def Instr.length (i : Instr) : Option Nat := i.extraWords.map (1 + ·)

/-- Whether the opcode writes operand A: 0x1 to 0xb (30_encoding.md R101). -/
def opcodeWritesA (op : BitVec 4) : Bool := 0x1 ≤ op.toNat && op.toNat ≤ 0xb

/-- The classes of words of 30_encoding.md R106. -/
inductive WordKind where
  | legalBasic
  | literalDestination
  | halt
  | jsr
  | undefinedNonBasic
  deriving DecidableEq, Repr

/-- The class of an instruction among those of 30_encoding.md R106. -/
def Instr.kind (i : Instr) : WordKind :=
  match i.form with
  | .basic op a _ => if opcodeWritesA op && a.isLiteral then .literalDestination else .legalBasic
  | .nonBasic opcode _ => if opcode = 0x00#6 then .halt else .jsr
  | .undefined _ _ => .undefinedNonBasic

/-! ## Streams of words -/

/-- Why a list of words does not start with a whole instruction. -/
inductive DecodeReject where
  /-- The list is empty. -/
  | noWord
  /-- The instruction's extra words run past the end of the list. -/
  | extraWordMissing (i : Instr)
  /-- An undefined non-basic instruction, which has no length (30_encoding.md R104). -/
  | noDefinedLength (i : Instr)
  deriving DecidableEq, Repr

/-- An instruction read off a list of words, with its extra words and the words after it. -/
structure Decoded where
  instr : Instr
  extras : List Word
  rest : List Word
  deriving DecidableEq, Repr

/-- The instruction at the head of a list of words, with its extra words (30_encoding.md R98, R104). -/
def decodeStream : List Word → Except DecodeReject Decoded
  | [] => .error .noWord
  | w :: ws =>
    match (decode w).extraWords with
    | none => .error (.noDefinedLength (decode w))
    | some n =>
      if n ≤ ws.length then .ok ⟨decode w, ws.take n, ws.drop n⟩ else .error (.extraWordMissing (decode w))

/-- Word `k` of an instruction given as one number with bit 0 the least significant bit of its first word; the bits
from `nbits` on are 0. -/
def tableWord (nbits w k : Nat) : Word := BitVec.ofNat 16 ((w % 2 ^ nbits) >>> (16 * k))

/-- The instruction the decoder reads from the words of such a number: its first word decides (30_encoding.md R105). -/
def decodeTableWord (nbits w : Nat) : Option Instr := some (decode (tableWord nbits w 0))

end Sys2Proof
end

