-- ==== Sys2Proof/Machine/State.lean ====
section
/-! DEFINITION. The machine's state: everything 10_state.md and 20_memory.md give it, as plain data; the reasons a
step can stop; and the state right after reset (70_reset_and_hazards.md R290). -/

namespace Sys2Proof.Machine

/-- One memory cell: a word address and the word it holds (20_memory.md R60, R66). The block reads and writes whole
words only and has no byte order (R64), so a cell is a word (assumption 1). -/
abbrev Cell := Nat × Word

/-- The memory array: its cells in rising order of address, none listed that holds what an unlisted address reads as
(`Memory.unlisted`), so that equal memories are equal lists (assumptions 1 and 2). -/
abbrev Memory := List Cell

/-- The general registers `x[0]` to `x[7]` (10_state.md R30). -/
structure Regs where
  a : Word
  b : Word
  c : Word
  x : Word
  y : Word
  z : Word
  i : Word
  j : Word
  deriving DecidableEq, Repr

/-- The run state (10_state.md R45). -/
inductive Status where
  | running
  | halted
  | faulted
  deriving DecidableEq, Repr

/-- The fault codes (60_exceptions.md R261), the spec's own (UNVERIFIED, assumption 18). -/
inductive FatalCode where
  /-- 1 FETCH_OUT_OF_RANGE (R262). -/
  | fetchOutOfRange
  /-- 2 EXTRA_WORD_OUT_OF_RANGE (R263). -/
  | extraWordOutOfRange
  /-- 3 OPERAND_ADDRESS_OUT_OF_RANGE (R264). -/
  | operandAddressOutOfRange
  /-- 4 WRITE_TO_LITERAL (R265). -/
  | writeToLiteral
  /-- 5 UNDEFINED_NON_BASIC (R266). -/
  | undefinedNonBasic
  /-- 6 UNKNOWN_OPERAND_CLASS: in the source's list, never raised (R267). -/
  | unknownOperandClass
  deriving DecidableEq, Repr

/-- The code's number (60_exceptions.md R261). -/
def FatalCode.number : FatalCode → Nat
  | .fetchOutOfRange => 1
  | .extraWordOutOfRange => 2
  | .operandAddressOutOfRange => 3
  | .writeToLiteral => 4
  | .undefinedNonBasic => 5
  | .unknownOperandClass => 6

/-- The fault record `(code, inst_pc, inst_word, addr)` (10_state.md R46): the instruction word is absent for code 1,
the address for codes 4 and 5. -/
structure FaultRecord where
  code : FatalCode
  instPc : Word
  instWord : Option Word
  addr : Option Word
  deriving DecidableEq, Repr

/-- The machine's state (10_state.md, "Summary of state"). `memWords` is the parameter `MEM_WORDS`, fixed before reset
and for the whole run (00_scope.md R11), which no step changes (assumption 3). `draws` is the MODEL'S own field, not
the spec's: how many times unspecified values have been drawn (assumption 5). -/
structure State where
  regs : Regs
  sp : Word
  pc : Word
  o : Word
  skip : Bool
  status : Status
  fault : Option FaultRecord
  mem : Memory
  memWords : Nat
  draws : Nat
  deriving DecidableEq, Repr

/-- Why no step is taken. Both are raised by `step` alone, from a state whose `status` is not `running`
(10_state.md R45: "`Halted` and `Faulted` are final: no step is taken from them"). Safe: the block is stuck there
(93_implementation_defined.md I4, I12), and the state the run ended in stays readable. -/
inductive Fault where
  /-- The run has ended by the halt instruction (44_nonbasic.md R242). Raised by `step`; safe. -/
  | runHalted
  /-- The run has ended by a fatal error, whose record is kept (60_exceptions.md R260). Raised by `step`; safe. -/
  | runFaulted (record : Option FaultRecord)
  deriving DecidableEq, Repr

/-- Why an instruction has no meaning. No arm of `exec` answers with it: every row of the table is modelled. -/
inductive Refusal where
  /-- An instruction of the table that has no meaning yet. Raised by an arm of `exec`; safe. -/
  | notModelled (mnemonic : String)
  deriving DecidableEq, Repr

/-- What a step ends in. -/
abbrev Outcome := Host.Outcome State Fault Refusal

/-- The state right after reset with capacity `memWords` and memory contents `mem` (70_reset_and_hazards.md R290):
general registers and O zero, SP at `wrap16(MEM_WORDS)` (UNVERIFIED, assumption 4), PC at 0, `skip` clear, running, no
fault record (UNVERIFIED, assumption 15). -/
def State.resetWith (memWords : Nat) (mem : Memory) : State where
  regs := ⟨0, 0, 0, 0, 0, 0, 0, 0⟩
  sp := BitVec.ofNat 16 memWords
  pc := 0
  o := 0
  skip := false
  status := .running
  fault := none
  mem := mem
  memWords := memWords
  draws := 0

/-- The reset state at the reference capacity, with no memory cell listed (assumptions 2 and 3). -/
def State.reset : State := .resetWith Config.referenceMemWords []

end Sys2Proof.Machine
end

