-- ==== Sys2Proof/Machine/Ops.lean ====
section
/-! DEFINITION. The named operations over registers and memory, the fetches, and the fatal error: the one exception
mechanism of the block (60_exceptions.md R260). -/

namespace Sys2Proof.Machine

/-! ## Memory -/

/-- What an address that is not listed reads as. The spec gives no contents for a cell that neither the image nor a
store has written (`INIT_MEM`, 00_scope.md R12: a parameter); any contents can be listed (`Memory.ofCells`).
DESIGN CHOICE, unsafe, assumption 2. -/
def Memory.unlisted : Word := 0

/-- The word at a word address. -/
def Memory.get : Memory → Nat → Word
  | [], _ => unlisted
  | (k, v) :: m, addr => if k = addr then v else Memory.get m addr

/-- The memory with the word at one address replaced, in canonical form (20_memory.md R63: "replaces the word at `addr`
with `v` and changes nothing else"). -/
def Memory.set : Memory → Nat → Word → Memory
  | [], addr, v => if v = unlisted then [] else [(addr, v)]
  | (k, w) :: m, addr, v =>
    if addr < k then if v = unlisted then (k, w) :: m else (addr, v) :: (k, w) :: m
    else if addr = k then if v = unlisted then m else (k, v) :: m
    else (k, w) :: Memory.set m addr v

/-- The canonical form from address `low` on. -/
def Memory.wfFrom : Nat → Memory → Bool
  | _, [] => true
  | low, (k, v) :: m => low ≤ k && v ≠ unlisted && Memory.wfFrom (k + 1) m

/-- The canonical form: addresses strictly rising, no entry equal to what an unlisted address reads as. -/
def Memory.wf (m : Memory) : Bool := Memory.wfFrom 0 m

/-- Every listed address is that of a cell the block owns, 0 to `memWords - 1` (20_memory.md R60). -/
def Memory.within (m : Memory) (memWords : Nat) : Bool := m.all (·.1 < memWords)

/-- The canonical memory that holds the given cells, of those the block owns; of two entries for one address the
earlier counts. -/
def Memory.ofCells (memWords : Nat) : List Cell → Memory
  | [] => []
  | (addr, v) :: cells =>
    if addr < memWords then Memory.set (Memory.ofCells memWords cells) addr v else Memory.ofCells memWords cells

/-- `MemRead(addr, 1)` at an address already checked (00_scope.md R16, R19; 20_memory.md R63). -/
def State.readMem (s : State) (addr : Word) : Word := Memory.get s.mem addr.toNat

/-- `MemWrite(addr, 1, v)` at an address already checked (00_scope.md R16, R19; 20_memory.md R63). -/
def State.writeMem (s : State) (addr v : Word) : State := { s with mem := Memory.set s.mem addr.toNat v }

/-! ## Registers -/

/-- `x[i]` (00_scope.md R16). -/
def Regs.get (r : Regs) : Reg → Word
  | .a => r.a | .b => r.b | .c => r.c | .x => r.x | .y => r.y | .z => r.z | .i => r.i | .j => r.j

/-- `x[i] <- v` (00_scope.md R16). -/
def Regs.set (r : Regs) (n : Reg) (v : Word) : Regs :=
  match n with
  | .a => { r with a := v }
  | .b => { r with b := v }
  | .c => { r with c := v }
  | .x => { r with x := v }
  | .y => { r with y := v }
  | .z => { r with z := v }
  | .i => { r with i := v }
  | .j => { r with j := v }

/-- Read general register `r`. -/
def State.reg (s : State) (r : Reg) : Word := s.regs.get r

/-- Write general register `r`; none is hardwired (10_state.md R31). -/
def State.setReg (s : State) (r : Reg) (v : Word) : State := { s with regs := s.regs.set r v }

/-- `SP <- v`. -/
def State.setSp (s : State) (v : Word) : State := { s with sp := v }

/-- `PC <- v`. -/
def State.setPc (s : State) (v : Word) : State := { s with pc := v }

/-- `O <- v`. -/
def State.setO (s : State) (v : Word) : State := { s with o := v }

/-- `skip <- v`. -/
def State.setSkip (s : State) (v : Bool) : State := { s with skip := v }

/-- `status <- v`. -/
def State.setStatus (s : State) (v : Status) : State := { s with status := v }

/-! ## The fatal error -/

/-- A fatal error on its way to the record: its code and the offending address, if it has one. -/
structure FatalError where
  code : FatalCode
  addr : Option Word
  deriving DecidableEq, Repr

/-- The general registers after a fatal error: free values (60_exceptions.md R270), assumption 5. -/
def freeRegs (draw : Nat) : Regs where
  a := Config.freeWord draw 0
  b := Config.freeWord draw 1
  c := Config.freeWord draw 2
  x := Config.freeWord draw 3
  y := Config.freeWord draw 4
  z := Config.freeWord draw 5
  i := Config.freeWord draw 6
  j := Config.freeWord draw 7

/-- `raise Fatal`: `status <- Faulted` and the fault record is set (60_exceptions.md R260; 10_state.md R46). `s` is the
state at the start of the step, so its PC is the record's `inst_pc`. Every register, `skip` and memory take free
values, because the spec leaves them unspecified (R270); the capacity stays. -/
def raiseFatal (s : State) (instWord : Option Word) (f : FatalError) : State where
  regs := freeRegs s.draws
  sp := Config.freeWord s.draws 8
  pc := Config.freeWord s.draws 9
  o := Config.freeWord s.draws 10
  skip := Config.freeBit s.draws
  status := .faulted
  fault := some { code := f.code, instPc := s.pc, instWord := instWord, addr := f.addr }
  mem := Memory.ofCells s.memWords (Config.freeCells s.draws)
  memWords := s.memWords
  draws := s.draws + 1

/-- The end of a step that processes instruction `i` from state `s`: the state its rules give, or the fatal error they
raise, with the instruction's word in the record (40_execution_cycle.md R158). -/
def complete (i : Instr) (s : State) (r : Except FatalError State) : Outcome :=
  match r with
  | .ok t => .next t
  | .error f => .next (raiseFatal s (some (encodeWord i)) f)

/-! ## Fetches and checks -/

/-- `PC <- wrap16(PC + 1)` (10_state.md R37; UNVERIFIED, assumption 17). -/
def State.advance (s : State) : State := s.setPc (s.pc + 1)

/-- The word at PC. -/
def State.nextWord (s : State) : Word := s.readMem s.pc

/-- The fetch of the instruction word: fatal code 1 if PC is at or beyond the capacity (40_execution_cycle.md R141).
The PC is advanced where the instruction is processed (`operands`, `operandB`, `skipInstr`). -/
def fetchInstr (s : State) : Except FatalError Word :=
  if s.pc.toNat < s.memWords then .ok s.nextWord else .error ⟨.fetchOutOfRange, some s.pc⟩

/-- The check of an extra word's fetch: fatal code 2 if PC is at or beyond the capacity (40_execution_cycle.md R146). -/
def checkExtra (s : State) : Except FatalError Unit :=
  if s.pc.toNat < s.memWords then .ok () else .error ⟨.extraWordOutOfRange, some s.pc⟩

/-- `fetchExtra()` (40_execution_cycle.md R146): the extra word at PC, and the state with PC past it. -/
def fetchExtra (s : State) : Except FatalError (Word × State) := do
  checkExtra s
  pure (s.nextWord, s.advance)

/-- `fetchExtra()` performed `n` times, the values discarded (40_execution_cycle.md R143). -/
def skipExtras : Nat → State → Except FatalError State
  | 0, s => pure s
  | n + 1, s => do
    let (_, t) ← fetchExtra s
    skipExtras n t

/-- `checkAddr(addr)`: fatal code 3 if the address is at or beyond the capacity (40_execution_cycle.md R149). -/
def checkAddr (s : State) (addr : Word) : Except FatalError Unit :=
  if addr.toNat < s.memWords then .ok () else .error ⟨.operandAddressOutOfRange, some addr⟩

/-! ## The skip path -/

/-- An instruction reached with `skip` set is consumed without effect (40_execution_cycle.md R143): an undefined
non-basic one has no length and raises fatal code 5; any other has its extra words fetched and discarded, and `skip`
is cleared. UNVERIFIED, assumption 10. -/
def skipInstr (i : Instr) (s : State) : Outcome :=
  complete i s <|
    match i.extraWords with
    | none => .error ⟨.undefinedNonBasic, none⟩
    | some n => do
      let t ← skipExtras n s.advance
      pure (t.setSkip false)

/-! ## Loading -/

/-- Words written to consecutive addresses from `addr` on, at those the block owns. -/
def State.storeWords (s : State) (addr : Word) : List Word → State
  | [] => s
  | w :: ws => State.storeWords (if addr.toNat < s.memWords then s.writeMem addr w else s) (addr + 1) ws

end Sys2Proof.Machine
end

