-- ==== Sys2Proof/Machine/Operands.lean ====
section
/-! DEFINITION. Operand resolution: every operand class, as a target and with its side effects, and the reading and
writing of a target (40_execution_cycle.md R144 to R152); and what a resolution comes to, said without its checks. -/

namespace Sys2Proof.Machine

/-- An operand's location (00_scope.md R17). -/
inductive Target where
  | reg (r : Reg)
  | sp
  | pc
  | o
  | mem (addr : Word)
  | lit (v : Word)
  deriving DecidableEq, Repr

/-- `read(t)` (40_execution_cycle.md R151). -/
def Target.read (t : Target) (s : State) : Word :=
  match t with
  | .reg r => s.reg r
  | .sp => s.sp
  | .pc => s.pc
  | .o => s.o
  | .mem addr => s.readMem addr
  | .lit v => v

/-- `write(t, v)` (40_execution_cycle.md R151). A literal is never written: `checkWritable` stops every instruction
that would. -/
def Target.write (t : Target) (v : Word) (s : State) : State :=
  match t with
  | .reg r => s.setReg r v
  | .sp => s.setSp v
  | .pc => s.setPc v
  | .o => s.setO v
  | .mem addr => s.writeMem addr v
  | .lit _ => s

/-- The target column of the table of 40_execution_cycle.md R147, at a state whose PC is at the operand's extra word
if it has one. -/
def operandTarget (c : OperandClass) (s : State) : Target :=
  match c with
  | .reg r => .reg r
  | .ind r => .mem (s.reg r)
  | .indexed r => .mem (s.nextWord + s.reg r)
  | .pop => .mem s.sp
  | .peek => .mem s.sp
  | .push => .mem (s.sp - 1)
  | .sp => .sp
  | .pc => .pc
  | .o => .o
  | .indNext => .mem s.nextWord
  | .nextLit => .lit s.nextWord
  | .lit n => .lit (n.setWidth 16)

/-- The side effects of the table of 40_execution_cycle.md R147: an extra word moves PC past it, a pop and a push move
SP, once, at resolution (R148). SP wraps (UNVERIFIED, assumption 17). -/
def afterOperand (c : OperandClass) (s : State) : State :=
  match c with
  | .indexed _ | .indNext | .nextLit => s.advance
  | .pop => s.setSp (s.sp + 1)
  | .push => s.setSp (s.sp - 1)
  | .reg _ | .ind _ | .peek | .sp | .pc | .o | .lit _ => s

/-- `checkAddr` on a target in memory; no check on any other (40_execution_cycle.md R147, R149). -/
def checkTarget (s : State) (t : Target) : Except FatalError Unit :=
  match t with
  | .mem addr => checkAddr s addr
  | .reg _ | .sp | .pc | .o | .lit _ => .ok ()

/-- `resolve(c)` (40_execution_cycle.md R147): the extra word's fetch is checked first, then the location. -/
def resolve (c : OperandClass) (s : State) : Except FatalError (Target × State) := do
  if c.extraWords = 1 then checkExtra s
  checkTarget s (operandTarget c s)
  pure (operandTarget c s, afterOperand c s)

/-- What a basic instruction works on once its operands are resolved: operand A's target, both values, and the state
its resolutions leave. -/
structure Operands where
  tA : Target
  vA : Word
  vB : Word
  st : State
  deriving DecidableEq, Repr

/-- Operand A is resolved completely, then operand B (40_execution_cycle.md R145); `vB` is read at once (R150), then
`vA`, so that it reflects operand B's side effects (R152). UNVERIFIED, assumption 9. `s` is the state at the
instruction's first word (assumption 8). -/
def operands (a b : OperandClass) (s : State) : Except FatalError Operands := do
  let (tA, sA) ← resolve a s.advance
  let (tB, sB) ← resolve b sA
  pure { tA := tA, vA := tA.read sB, vB := tB.read sB, st := sB }

/-- The one operand of a non-basic instruction, resolved and read (40_execution_cycle.md R145, R150; 44_nonbasic.md
R240). -/
def operandB (b : OperandClass) (s : State) : Except FatalError (Word × State) := do
  let (tB, sB) ← resolve b s.advance
  pure (tB.read sB, sB)

/-- The decode check of an opcode that writes operand A: fatal code 4 if it is a literal class, before any operand is
resolved (40_execution_cycle.md R144; 60_exceptions.md R265). -/
def checkWritable (a : OperandClass) : Except FatalError Unit :=
  if a.isLiteral then .error ⟨.writeToLiteral, none⟩ else .ok ()

/-- An instruction that writes operand A: the decode check, the operands, then the opcode's writes (41_move_arith.md,
42_shift_logic.md). -/
def writing (i : Instr) (a b : OperandClass) (s : State) (effect : Operands → State) : Outcome :=
  complete i s do
    checkWritable a
    let p ← operands a b s
    pure (effect p)

/-- A conditional: both operands are read and neither is written; `skip` is set when the condition is false
(43_conditional.md R220). -/
def conditional (i : Instr) (a b : OperandClass) (s : State) (cond : Word → Word → Bool) : Outcome :=
  complete i s do
    let p ← operands a b s
    pure (p.st.setSkip (!cond p.vA p.vB))

/-! ## What resolution comes to, with no check: the terms the statements use -/

/-- A target that is no memory cell beyond the capacity. -/
def Target.inRange (t : Target) (memWords : Nat) : Bool :=
  match t with
  | .mem addr => addr.toNat < memWords
  | .reg _ | .sp | .pc | .o | .lit _ => true

/-- The operand's extra word, if it has one, and its location, if it is in memory, lie below the capacity. The state is
the one the operand is resolved in: PC is at its extra word. -/
abbrev OperandInRange (c : OperandClass) (s : State) : Prop :=
  (c.extraWords = 1 → s.pc.toNat < s.memWords) ∧ (operandTarget c s).inRange s.memWords = true

/-- Both operands of a basic instruction lie in memory, operand B as it is met after operand A's side effects. The state
is the one at the instruction's first word. -/
abbrev OperandsInRange (a b : OperandClass) (s : State) : Prop :=
  OperandInRange a s.advance ∧ OperandInRange b (afterOperand a s.advance)

/-- What a basic instruction works on, with no check: operand A's target; the state after both operands' side effects;
both values, read in it. -/
def resolvedOperands (a b : OperandClass) (s : State) : Operands :=
  let sA := afterOperand a s.advance
  let sB := afterOperand b sA
  { tA := operandTarget a s.advance,
    vA := (operandTarget a s.advance).read sB,
    vB := (operandTarget b sA).read sB,
    st := sB }

/-- The fatal error of an operand that does not lie in memory: code 2 for its extra word before code 3 for its location
(60_exceptions.md R269). -/
def operandFault (c : OperandClass) (s : State) : Option FatalError :=
  if c.extraWords = 1 ∧ s.memWords ≤ s.pc.toNat then some ⟨.extraWordOutOfRange, some s.pc⟩
  else
    match operandTarget c s with
    | .mem addr => if s.memWords ≤ addr.toNat then some ⟨.operandAddressOutOfRange, some addr⟩ else none
    | .reg _ | .sp | .pc | .o | .lit _ => none

/-- The first fatal error of a basic instruction's operands: operand A's before operand B's (60_exceptions.md R269). -/
def operandsFault (a b : OperandClass) (s : State) : Option FatalError :=
  match operandFault a s.advance with
  | some f => some f
  | none => operandFault b (afterOperand a s.advance)

/-- SP after an operand's side effect (10_state.md R35). -/
def spAfterOperand (c : OperandClass) (sp : Word) : Word :=
  match c with
  | .pop => sp + 1
  | .push => sp - 1
  | .reg _ | .ind _ | .indexed _ | .peek | .sp | .pc | .o | .indNext | .nextLit | .lit _ => sp

end Sys2Proof.Machine
end

