-- ==== Sys2Proof/Machine/Conditional.lean ====
section
/-! DEFINITION. IFE, IFN, IFG, IFB (43_conditional.md). Each meaning takes the state at the instruction's first word. -/

namespace Sys2Proof.Machine

/-- IFE: execute the next instruction only if A equals B (43_conditional.md R221). -/
def execIfe (a b : OperandClass) (s : State) : Outcome :=
  conditional (.ife a b) a b s fun vA vB => vA == vB

/-- IFN: execute the next instruction only if A differs from B (43_conditional.md R222). -/
def execIfn (a b : OperandClass) (s : State) : Outcome :=
  conditional (.ifn a b) a b s fun vA vB => vA != vB

/-- IFG: execute the next instruction only if A is greater than B, unsigned (43_conditional.md R223). -/
def execIfg (a b : OperandClass) (s : State) : Outcome :=
  conditional (.ifg a b) a b s fun vA vB => decide (vA.toNat > vB.toNat)

/-- IFB: execute the next instruction only if A and B have a set bit in common (43_conditional.md R224). -/
def execIfb (a b : OperandClass) (s : State) : Outcome :=
  conditional (.ifb a b) a b s fun vA vB => (vA &&& vB) != 0

/-- `i` is a conditional with operand classes `a` and `b`, and its condition is false of the values `vA` and `vB`
(43_conditional.md R221 to R224). A term of the statements. -/
abbrev ConditionFalse (i : Instr) (a b : OperandClass) (vA vB : Word) : Prop :=
  (i = .ife a b ∧ vA ≠ vB) ∨ (i = .ifn a b ∧ vA = vB) ∨ (i = .ifg a b ∧ vA.toNat ≤ vB.toNat) ∨
    (i = .ifb a b ∧ vA &&& vB = 0)

end Sys2Proof.Machine
end

