-- ==== Sys2Proof/Machine/Flags.lean ====
section
/-! DEFINITION. The results and the O values of the arithmetic and shift opcodes, computed exactly on natural numbers
and reduced as each rule writes (00_scope.md R15; 41_move_arith.md R186), and the order of the two writes
(41_move_arith.md R187). -/

namespace Sys2Proof.Machine

/-- `wrap16(v)` of a natural number (00_scope.md R15). -/
def wrap16 (v : Nat) : Word := BitVec.ofNat 16 v

/-- ADD's result (41_move_arith.md R181). -/
def addResult (vA vB : Word) : Word := wrap16 (vA.toNat + vB.toNat)

/-- ADD's O: the carry, 0 or 1 (41_move_arith.md R181). -/
def addOverflow (vA vB : Word) : Word := if vA.toNat + vB.toNat > 0xffff then 1 else 0

/-- SUB's result, `wrap16(vA - vB)` on the integers (41_move_arith.md R182; 00_scope.md R15). -/
def subResult (vA vB : Word) : Word := BitVec.ofInt 16 ((vA.toNat : Int) - (vB.toNat : Int))

/-- SUB's O: the borrow, 0 or 0xffff (41_move_arith.md R182). -/
def subOverflow (vA vB : Word) : Word := if vA.toNat < vB.toNat then 0xffff else 0

/-- MUL's result (41_move_arith.md R183). -/
def mulResult (vA vB : Word) : Word := wrap16 (vA.toNat * vB.toNat)

/-- MUL's O: the high 16 bits of the product (41_move_arith.md R183). -/
def mulOverflow (vA vB : Word) : Word := wrap16 ((vA.toNat * vB.toNat) >>> 16)

/-- DIV's result; division by zero gives 0 (41_move_arith.md R184). -/
def divResult (vA vB : Word) : Word := if vB = 0 then 0 else wrap16 (vA.toNat / vB.toNat)

/-- DIV's O: the first 16 bits of the quotient's binary fraction; 0 for division by zero (41_move_arith.md R184). -/
def divOverflow (vA vB : Word) : Word := if vB = 0 then 0 else wrap16 ((vA.toNat <<< 16) / vB.toNat)

/-- MOD's result; remainder by zero gives 0 (41_move_arith.md R185). -/
def modResult (vA vB : Word) : Word := if vB = 0 then 0 else wrap16 (vA.toNat % vB.toNat)

/-- SHL's result: the shift amount is the whole of `vB` (42_shift_logic.md R200, R205; UNVERIFIED, assumption 12, for
this and the next three). -/
def shlResult (vA vB : Word) : Word := wrap16 (vA.toNat <<< vB.toNat)

/-- SHL's O: the bits that land in bits 31 to 16 (42_shift_logic.md R200). -/
def shlOverflow (vA vB : Word) : Word := wrap16 ((vA.toNat <<< vB.toNat) >>> 16)

/-- SHR's result (42_shift_logic.md R201). -/
def shrResult (vA vB : Word) : Word := wrap16 (vA.toNat >>> vB.toNat)

/-- SHR's O: the bits shifted out below bit 0, left-aligned in a word (42_shift_logic.md R201). -/
def shrOverflow (vA vB : Word) : Word := wrap16 ((vA.toNat <<< 16) >>> vB.toNat)

/-- The write-back of ADD, SUB and MUL: the result to A first, O second (41_move_arith.md R187; UNVERIFIED,
assumption 11). -/
def resultThenO (t : Target) (r o : Word) (s : State) : State := (t.write r s).setO o

/-- The write-back of DIV, SHL and SHR: O first, the result to A second (41_move_arith.md R187; UNVERIFIED,
assumption 11). -/
def oThenResult (t : Target) (r o : Word) (s : State) : State := t.write r (s.setO o)

/-! ## What an instruction stores: the terms the statements use -/

/-- The word an instruction writes to operand A (41_move_arith.md R180 to R185, 42_shift_logic.md R200 to R204). -/
def writtenWord (i : Instr) (vA vB : Word) : Option Word :=
  match i with
  | .set _ _ => some vB
  | .add _ _ => some (addResult vA vB)
  | .sub _ _ => some (subResult vA vB)
  | .mul _ _ => some (mulResult vA vB)
  | .div _ _ => some (divResult vA vB)
  | .mod _ _ => some (modResult vA vB)
  | .shl _ _ => some (shlResult vA vB)
  | .shr _ _ => some (shrResult vA vB)
  | .and _ _ => some (vA &&& vB)
  | .bor _ _ => some (vA ||| vB)
  | .xor _ _ => some (vA ^^^ vB)
  | .ife _ _ | .ifn _ _ | .ifg _ _ | .ifb _ _ | .jsr _ | .halt _ | .undefinedNonBasic _ _ => none

/-- The address and the word an instruction stores to memory, from the state at its first word: operand A's cell and
the result, or JSR's new top cell and the return address (20_memory.md R68; 44_nonbasic.md R241). -/
def storedWord (i : Instr) (s : State) : Option (Word × Word) :=
  match i with
  | .set a b | .add a b | .sub a b | .mul a b | .div a b | .mod a b | .shl a b | .shr a b | .and a b | .bor a b
  | .xor a b =>
    match operandTarget a s.advance with
    | .mem addr => (writtenWord i (resolvedOperands a b s).vA (resolvedOperands a b s).vB).map fun v => (addr, v)
    | .reg _ | .sp | .pc | .o | .lit _ => none
  | .jsr b => some ((afterOperand b s.advance).sp - 1, (afterOperand b s.advance).pc)
  | .ife _ _ | .ifn _ _ | .ifg _ _ | .ifb _ _ | .halt _ | .undefinedNonBasic _ _ => none

end Sys2Proof.Machine
end

