-- ==== Sys2Proof/Machine/MoveArith.lean ====
section
/-! DEFINITION. SET, ADD, SUB, MUL, DIV, MOD (41_move_arith.md). Each meaning takes the state at the instruction's first
word. -/

namespace Sys2Proof.Machine

/-- SET: copy operand B to operand A, which is not read (41_move_arith.md R180). -/
def execSet (a b : OperandClass) (s : State) : Outcome :=
  writing (.set a b) a b s fun p => p.tA.write p.vB p.st

/-- ADD: add operand B to operand A, carry to O (41_move_arith.md R181). -/
def execAdd (a b : OperandClass) (s : State) : Outcome :=
  writing (.add a b) a b s fun p => resultThenO p.tA (addResult p.vA p.vB) (addOverflow p.vA p.vB) p.st

/-- SUB: subtract operand B from operand A, borrow to O (41_move_arith.md R182). -/
def execSub (a b : OperandClass) (s : State) : Outcome :=
  writing (.sub a b) a b s fun p => resultThenO p.tA (subResult p.vA p.vB) (subOverflow p.vA p.vB) p.st

/-- MUL: multiply operand A by operand B, high word to O (41_move_arith.md R183). -/
def execMul (a b : OperandClass) (s : State) : Outcome :=
  writing (.mul a b) a b s fun p => resultThenO p.tA (mulResult p.vA p.vB) (mulOverflow p.vA p.vB) p.st

/-- DIV: divide operand A by operand B, fractional word to O (41_move_arith.md R184): with a zero divisor 0 is written
to A and then to O; otherwise O is written first. -/
def execDiv (a b : OperandClass) (s : State) : Outcome :=
  writing (.div a b) a b s fun p =>
    if p.vB = 0 then resultThenO p.tA 0 0 p.st
    else oThenResult p.tA (divResult p.vA p.vB) (divOverflow p.vA p.vB) p.st

/-- MOD: remainder of operand A divided by operand B; O is not written (41_move_arith.md R185). -/
def execMod (a b : OperandClass) (s : State) : Outcome :=
  writing (.mod a b) a b s fun p => p.tA.write (modResult p.vA p.vB) p.st

end Sys2Proof.Machine
end

