-- ==== Sys2Proof/Machine/NonBasic.lean ====
section
/-! DEFINITION. JSR, HALT and the undefined non-basic opcodes (44_nonbasic.md). Each meaning takes the state at the
instruction's first word. -/

namespace Sys2Proof.Machine

/-- JSR: operand B is the target; then SP is lowered, the new top cell is checked, the return address (PC, past the
whole instruction) is stored there, and PC takes the target (44_nonbasic.md R241; the check is UNVERIFIED,
assumption 14). -/
def execJsr (b : OperandClass) (s : State) : Outcome :=
  complete (.jsr b) s do
    let (vB, sB) ← operandB b s
    let sP := sB.setSp (sB.sp - 1)
    checkAddr sP sP.sp
    pure ((sP.writeMem sP.sp sP.pc).setPc vB)

/-- HALT: operand B is evaluated and discarded, then the run ends (44_nonbasic.md R242; UNVERIFIED, assumption 14). -/
def execHalt (b : OperandClass) (s : State) : Outcome :=
  complete (.halt b) s do
    let (_, sB) ← operandB b s
    pure (sB.setStatus .halted)

/-- An undefined non-basic opcode: fatal code 5, no operand resolved (44_nonbasic.md R243). -/
def execUndefinedNonBasic (opcode b : BitVec 6) (s : State) : Outcome :=
  complete (.undefinedNonBasic opcode b) s (.error ⟨.undefinedNonBasic, none⟩)

end Sys2Proof.Machine
end

