-- ==== Sys2Proof/Machine/ShiftLogic.lean ====
section
/-! DEFINITION. SHL, SHR, AND, BOR, XOR (42_shift_logic.md). Each meaning takes the state at the instruction's first
word. -/

namespace Sys2Proof.Machine

/-- SHL: shift operand A left by operand B, bits shifted out to O (42_shift_logic.md R200). -/
def execShl (a b : OperandClass) (s : State) : Outcome :=
  writing (.shl a b) a b s fun p => oThenResult p.tA (shlResult p.vA p.vB) (shlOverflow p.vA p.vB) p.st

/-- SHR: shift operand A right, logically, by operand B, bits shifted out to O (42_shift_logic.md R201). -/
def execShr (a b : OperandClass) (s : State) : Outcome :=
  writing (.shr a b) a b s fun p => oThenResult p.tA (shrResult p.vA p.vB) (shrOverflow p.vA p.vB) p.st

/-- AND: bitwise and; O is not written (42_shift_logic.md R202). -/
def execAnd (a b : OperandClass) (s : State) : Outcome :=
  writing (.and a b) a b s fun p => p.tA.write (p.vA &&& p.vB) p.st

/-- BOR: bitwise or; O is not written (42_shift_logic.md R203). -/
def execBor (a b : OperandClass) (s : State) : Outcome :=
  writing (.bor a b) a b s fun p => p.tA.write (p.vA ||| p.vB) p.st

/-- XOR: bitwise exclusive or; O is not written (42_shift_logic.md R204). -/
def execXor (a b : OperandClass) (s : State) : Outcome :=
  writing (.xor a b) a b s fun p => p.tA.write (p.vA ^^^ p.vB) p.st

end Sys2Proof.Machine
end

