-- ==== Sys2Proof/Machine/Step.lean ====
section
/-! DEFINITION. One step: one instruction, fetched and then executed or skipped (40_execution_cycle.md R140). -/

namespace Sys2Proof.Machine

/-- One step. It is taken only while the run is on (10_state.md R45); the instruction word is fetched (fatal code 1 if
PC is out of range, 40_execution_cycle.md R141) and decoded (R142), and the instruction is consumed if `skip` is set
(R143), executed if not (R144 to R157). A halted or faulted block takes no step (assumption 6); a store is seen by the
next fetch (UNVERIFIED, assumption 19). -/
def step (s : State) : Host.Outcome State Fault Refusal :=
  match s.status with
  | .halted => .fault .runHalted
  | .faulted => .fault (.runFaulted s.fault)
  | .running =>
    match fetchInstr s with
    | .error f => .next (raiseFatal s none f)
    | .ok w => if s.skip then skipInstr (decode w) s else exec (decode w) s

/-- The state with an instruction's words, given as one number, stored at PC, and about to run it: running, `skip`
clear. Stands for the host's load (20_memory.md R70), assumption 7. -/
def State.withFetchWord (s : State) (nbits w : Nat) : State :=
  State.storeWords { s with skip := false, status := .running, fault := none } s.pc
    [tableWord nbits w 0, tableWord nbits w 1, tableWord nbits w 2]

end Sys2Proof.Machine
end

