-- ==== Sys2Proof/Machine/Assembler.lean ====
section
/-! DEFINITION. The encoder's contract (30_encoding.md R108 to R117): first on parsed lines, then on source text. The
encoder is no part of the block, and file reading, line continuation, directives and label resolution are out of scope
(00_scope.md R5); this is the notation the spec's programs are written in, and the encoding the decoder must agree
with (R117). -/

namespace Sys2Proof.Asm

/-- An operand as it is written (30_encoding.md R110 to R112); a literal is any integer (R113). -/
inductive Operand where
  | reg (r : Reg)
  | sp
  | pc
  | o
  | pop
  | peek
  | push
  | ind (r : Reg)
  | indLiteral (n : Int)
  | indexed (n : Int) (r : Reg)
  | literal (n : Int)
  deriving DecidableEq, Repr

/-- `N mod 65536`: the extra word of a bare literal (30_encoding.md R112). The same reduction is applied to a bracketed
literal that is negative or above 65535, for which R111 gives no word: DESIGN CHOICE, assumption 20. -/
def literalWord (n : Int) : Word := BitVec.ofInt 16 n

/-- The class of an operand and its extra word, if any (30_encoding.md R110 to R112): "small literals are free, large
literals cost a word", and "a bracketed literal always costs an extra word, whatever its value". The word of a bracketed
literal outside 0 to 65535 is a DESIGN CHOICE, assumption 20. -/
def Operand.encode : Operand → OperandClass × List Word
  | .reg r => (.reg r, [])
  | .sp => (.sp, [])
  | .pc => (.pc, [])
  | .o => (.o, [])
  | .pop => (.pop, [])
  | .peek => (.peek, [])
  | .push => (.push, [])
  | .ind r => (.ind r, [])
  | .indLiteral n => (.indNext, [literalWord n])
  | .indexed n r => (.indexed r, [literalWord n])
  | .literal n => if 0 ≤ n ∧ n ≤ 31 then (.lit (BitVec.ofInt 5 n), []) else (.nextLit, [literalWord n])

/-- The two-operand mnemonics (30_encoding.md R109). -/
inductive Mnemonic where
  | set | add | sub | mul | div | mod | shl | shr | and | bor | xor | ife | ifn | ifg | ifb
  deriving DecidableEq, Repr

/-- The instruction of a mnemonic: the first operand is A, the second B (30_encoding.md R109). -/
def Mnemonic.instr : Mnemonic → OperandClass → OperandClass → Instr
  | .set => .set | .add => .add | .sub => .sub | .mul => .mul | .div => .div | .mod => .mod | .shl => .shl
  | .shr => .shr | .and => .and | .bor => .bor | .xor => .xor | .ife => .ife | .ifn => .ifn | .ifg => .ifg
  | .ifb => .ifb

/-- A parsed line (30_encoding.md R108): an instruction, or a label or comment line, which "produces no instruction
word". JSR takes a literal and nothing else (R114). -/
inductive Line where
  | basic (m : Mnemonic) (x y : Operand)
  | jsr (n : Int)
  | noInstruction
  deriving DecidableEq, Repr

/-- The words of a line: the instruction word, then operand A's extra word, then operand B's (30_encoding.md R115). -/
def Line.words : Line → List Word
  | .basic m x y => Sys2Proof.encode (m.instr x.encode.1 y.encode.1) (x.encode.2 ++ y.encode.2)
  | .jsr n =>
    let y := Operand.encode (.literal n)
    Sys2Proof.encode (.jsr y.1) y.2
  | .noInstruction => []

/-- "Lines are assembled in file order into one flat output word stream" (30_encoding.md R115). -/
def assemble (lines : List Line) : List Word := lines.flatMap Line.words

/-! ## Source text

What the spec leaves open of the text (DESIGN CHOICE, assumption 16): which characters are whitespace, which
characters a word has, that a minus sign belongs to the digits after it, that any word may name a label, that an empty
line is like a comment line, and that a parse error's remainder is kept as tokens, and where it begins. -/

/-- A token of a line. -/
inductive Token where
  /-- A name or a literal: letters, digits, underscores and minus signs. -/
  | word (chars : List Char)
  | comma
  | colon
  | openBracket
  | closeBracket
  | plus
  /-- A character of no production. -/
  | other (c : Char)
  deriving DecidableEq, Repr

/-- Whitespace: space, tab, carriage return and line feed, and no other character; the spec does not say which
(30_encoding.md R108). DESIGN CHOICE, assumption 16. -/
def isSpace (c : Char) : Bool := c == ' ' || c == '\t' || c == '\r' || c == '\n'

/-- A character of a word: an ASCII letter, a digit, an underscore or a minus sign. DESIGN CHOICE, assumption 16. -/
def isWordChar (c : Char) : Bool := c.isAlpha || c.isDigit || c == '_' || c == '-'

/-- The token of a character that belongs to no word. -/
def symbolToken (c : Char) : Token :=
  if c = ',' then .comma
  else if c = ':' then .colon
  else if c = '[' then .openBracket
  else if c = ']' then .closeBracket
  else if c = '+' then .plus
  else .other c

/-- The word read so far, in reverse, before further tokens. -/
def flushWord (reversed : List Char) (rest : List Token) : List Token :=
  match reversed with
  | [] => rest
  | _ :: _ => .word reversed.reverse :: rest

/-- The tokens of a line: whitespace separates tokens and means nothing else; a comment runs from `;` to the end
(30_encoding.md R108). `reversed` is the word being read. -/
def lexFrom (reversed : List Char) : List Char → List Token
  | [] => flushWord reversed []
  | c :: cs =>
    if c = ';' then flushWord reversed []
    else if isSpace c then flushWord reversed (lexFrom [] cs)
    else if isWordChar c then lexFrom (c :: reversed) cs
    else flushWord reversed (symbolToken c :: lexFrom [] cs)

/-- The tokens of a line. -/
def lexLine (line : List Char) : List Token := lexFrom [] line

/-- The value of a digit in a base of at most 16. -/
def digitValue (base : Nat) (c : Char) : Option Nat :=
  let n := c.toNat
  let v := if 48 ≤ n ∧ n ≤ 57 then n - 48 else if 97 ≤ n ∧ n ≤ 102 then n - 87 else if 65 ≤ n ∧ n ≤ 70 then n - 55 else 16
  if v < base then some v else none

/-- The value of digits after those of value `acc`; malformed digits have none. -/
def digitsFrom (base acc : Nat) : List Char → Option Nat
  | [] => some acc
  | c :: cs => (digitValue base c).bind fun v => digitsFrom base (acc * base + v) cs

/-- The value of one or more digits. -/
def digits (base : Nat) : List Char → Option Nat
  | [] => none
  | c :: cs => digitsFrom base 0 (c :: cs)

/-- An unsigned literal (30_encoding.md R113): "A literal with a recognized prefix but malformed digits is a hard parse
failure (not falling back to another base)". -/
def parseUnsigned (chars : List Char) : Option Nat :=
  match chars with
  | '0' :: c :: cs =>
    if c = 'x' ∨ c = 'X' then digits 16 cs
    else if c = 'b' ∨ c = 'B' then digits 2 cs
    else digits 8 (c :: cs)
  | _ => digits 10 chars

/-- A literal, with or without a leading minus sign (30_encoding.md R113). -/
def parseLiteral (chars : List Char) : Option Int :=
  match chars with
  | '-' :: cs => (parseUnsigned cs).map fun n => -(n : Int)
  | _ => (parseUnsigned chars).map fun n => (n : Int)

/-- A name without regard to case (30_encoding.md R109, R110). -/
def lowerCase (chars : List Char) : List Char := chars.map Char.toLower

/-- The general registers by name (30_encoding.md R110). -/
def registerNames : List (List Char × Reg) :=
  [(['a'], .a), (['b'], .b), (['c'], .c), (['x'], .x), (['y'], .y), (['z'], .z), (['i'], .i), (['j'], .j)]

/-- The operands that are one name (30_encoding.md R110). -/
def operandNames : List (List Char × Operand) :=
  registerNames.map (fun e => (e.1, Operand.reg e.2)) ++
    [(['s', 'p'], .sp), (['p', 'c'], .pc), (['o'], .o), (['p', 'o', 'p'], .pop), (['p', 'e', 'e', 'k'], .peek),
      (['p', 'u', 's', 'h'], .push)]

/-- The two-operand mnemonics by name (30_encoding.md R109). -/
def mnemonicNames : List (List Char × Mnemonic) :=
  [(['s', 'e', 't'], .set), (['a', 'd', 'd'], .add), (['s', 'u', 'b'], .sub), (['m', 'u', 'l'], .mul),
    (['d', 'i', 'v'], .div), (['m', 'o', 'd'], .mod), (['s', 'h', 'l'], .shl), (['s', 'h', 'r'], .shr)] ++
    [(['a', 'n', 'd'], .and), (['b', 'o', 'r'], .bor), (['x', 'o', 'r'], .xor), (['i', 'f', 'e'], .ife),
      (['i', 'f', 'n'], .ifn), (['i', 'f', 'g'], .ifg), (['i', 'f', 'b'], .ifb)]

/-- The entry of a name in a table, without regard to case. -/
def lookupName {α : Type} (table : List (List Char × α)) (chars : List Char) : Option α :=
  (table.find? fun e => e.1 == lowerCase chars).map (·.2)

/-- An operand at the head of a line's tokens, with the tokens after it (30_encoding.md R110 to R113). -/
def parseOperand : List Token → Option (Operand × List Token)
  | .word w :: rest =>
    match lookupName operandNames w with
    | some x => some (x, rest)
    | none => (parseLiteral w).map fun n => (.literal n, rest)
  | .openBracket :: .word w :: .closeBracket :: rest =>
    match lookupName registerNames w with
    | some r => some (.ind r, rest)
    | none => (parseLiteral w).map fun n => (.indLiteral n, rest)
  | .openBracket :: .word w :: .plus :: .word r :: .closeBracket :: rest =>
    match parseLiteral w, lookupName registerNames r with
    | some n, some r => some (.indexed n r, rest)
    | _, _ => none
  | _ => none

/-- The operands of a two-operand mnemonic: "mnemonic operand, operand" (30_encoding.md R108). The error is the
unparsed remainder, from the start of the operand that fails or from the first token left over (DESIGN CHOICE,
assumption 16). -/
def parseTwo (m : Mnemonic) (tokens : List Token) : Except (List Token) Line :=
  match parseOperand tokens with
  | none => .error tokens
  | some (x, .comma :: rest) =>
    match parseOperand rest with
    | none => .error rest
    | some (y, []) => .ok (.basic m x y)
    | some (_, more) => .error more
  | some (_, more) => .error more

/-- The production a line's tokens match (30_encoding.md R108, R109, R114), or its unparsed remainder: the tokens from
the start of the first part of the line (mnemonic, operand, JSR's literal) that fails, or from the first token left over
where a part's end or a comma was due. DESIGN CHOICE, assumption 16. -/
def parseLine : List Token → Except (List Token) Line
  | [] => .ok .noInstruction
  | .word _ :: .colon :: rest =>
    match rest with
    | [] => .ok .noInstruction
    | _ :: _ => .error rest
  | .word m :: rest =>
    if lowerCase m = ['j', 's', 'r'] then
      match rest with
      | .word w :: more =>
        match parseLiteral w, more with
        | some n, [] => .ok (.jsr n)
        | some _, _ :: _ => .error more
        | none, _ => .error rest
      | _ => .error rest
    else
      match lookupName mnemonicNames m with
      | some m => parseTwo m rest
      | none => .error (.word m :: rest)
  | tokens => .error tokens

/-- A line that matches no production (30_encoding.md R116): "the failing line and the unparsed remainder". -/
structure ParseError where
  line : List Char
  remainder : List Token
  deriving DecidableEq, Repr

/-- What encoding a file gives: the words and the parse errors. -/
structure Encoded where
  words : List Word
  errors : List ParseError
  deriving DecidableEq, Repr

/-- The encoding of the lines of a file (30_encoding.md R115, R116): a failing line contributes no word, and encoding
goes on. -/
def encodeLines : List (List Char) → Encoded
  | [] => ⟨[], []⟩
  | line :: lines =>
    let later := encodeLines lines
    match parseLine (lexLine line) with
    | .ok l => ⟨l.words ++ later.words, later.errors⟩
    | .error remainder => ⟨later.words, ⟨line, remainder⟩ :: later.errors⟩

/-- "callers should treat any parse failure count > 0 as 'build failed'" (30_encoding.md R116): the image there is to
load, if any. -/
def Encoded.image (e : Encoded) : Option (List Word) :=
  match e.errors with
  | [] => some e.words
  | _ :: _ => none

end Sys2Proof.Asm
end

