-- ==== Sys2Proof/Machine/Reference.lean ====
section
/-! DEFINITION. The "Pseudocode summary of one step" that closes 40_execution_cycle.md, written down on the raw fields
of the instruction word, with the opcode rules' own formulas: a second reading of the step, for the statement that
`step` agrees with it. The machine does not use it. -/

namespace Sys2Proof.Reference

open Sys2Proof.Machine

/-- `nw(c)` on the six-bit code (30_encoding.md R97). -/
def nw (c : Nat) : Nat := if (0x10 ≤ c ∧ c ≤ 0x17) ∨ c = 0x1e ∨ c = 0x1f then 1 else 0

/-- The register of index 0 to 7 (10_state.md R30). -/
def register : Nat → Reg
  | 0 => .a | 1 => .b | 2 => .c | 3 => .x | 4 => .y | 5 => .z | 6 => .i | _ => .j

/-- `x[i]`. -/
def x (s : State) (i : Nat) : Word := s.reg (register i)

/-- `resolve(c)` on the six-bit code, row by row (40_execution_cycle.md R147). -/
def resolve (c : Nat) (s : State) : Except FatalError (Target × State) :=
  if c ≤ 0x07 then pure (.reg (register c), s)
  else if c ≤ 0x0f then do
    let addr := x s (c - 0x08)
    checkAddr s addr
    pure (.mem addr, s)
  else if c ≤ 0x17 then do
    let (n, s) ← fetchExtra s
    let addr := wrap16 (n.toNat + (x s (c - 0x10)).toNat)
    checkAddr s addr
    pure (.mem addr, s)
  else if c = 0x18 then do
    let addr := s.sp
    checkAddr s addr
    pure (.mem addr, s.setSp (wrap16 (s.sp.toNat + 1)))
  else if c = 0x19 then do
    checkAddr s s.sp
    pure (.mem s.sp, s)
  else if c = 0x1a then do
    let s := s.setSp (BitVec.ofInt 16 ((s.sp.toNat : Int) - 1))
    checkAddr s s.sp
    pure (.mem s.sp, s)
  else if c = 0x1b then pure (.sp, s)
  else if c = 0x1c then pure (.pc, s)
  else if c = 0x1d then pure (.o, s)
  else if c = 0x1e then do
    let (n, s) ← fetchExtra s
    checkAddr s n
    pure (.mem n, s)
  else if c = 0x1f then do
    let (n, s) ← fetchExtra s
    pure (.lit n, s)
  else pure (.lit (wrap16 (c - 0x20)), s)

/-- The write-back of opcodes 0x1 to 0xb, each rule's pseudocode on the values as natural numbers (41_move_arith.md R180
to R185, 42_shift_logic.md R200 to R204). -/
def writeBack (op : Nat) (tA : Target) (vA vB : Nat) (s : State) : State :=
  match op with
  | 0x1 => tA.write (wrap16 vB) s
  | 0x2 => (tA.write (wrap16 (vA + vB)) s).setO (if vA + vB > 0xffff then 1 else 0)
  | 0x3 => (tA.write (BitVec.ofInt 16 ((vA : Int) - vB)) s).setO (if vA < vB then 0xffff else 0)
  | 0x4 => (tA.write (wrap16 (vA * vB)) s).setO (wrap16 (vA * vB / 65536))
  | 0x5 =>
    if vB = 0 then (tA.write 0 s).setO 0
    else tA.write (wrap16 (vA / vB)) (s.setO (wrap16 (vA * 65536 / vB)))
  | 0x6 => if vB = 0 then tA.write 0 s else tA.write (wrap16 (vA % vB)) s
  | 0x7 => tA.write (wrap16 (vA * 2 ^ vB)) (s.setO (wrap16 (vA * 2 ^ vB / 65536)))
  | 0x8 => tA.write (wrap16 (vA / 2 ^ vB)) (s.setO (wrap16 (vA * 65536 / 2 ^ vB)))
  | 0x9 => tA.write (wrap16 (vA &&& vB)) s
  | 0xa => tA.write (wrap16 (vA ||| vB)) s
  | _ => tA.write (wrap16 (vA ^^^ vB)) s

/-- The conditions of opcodes 0xc to 0xf (43_conditional.md R221 to R224). -/
def cond (op vA vB : Nat) : Bool :=
  match op with
  | 0xc => vA == vB
  | 0xd => vA != vB
  | 0xe => decide (vA > vB)
  | _ => (vA &&& vB) != 0

/-- `fetchExtra()` `n` times, the values discarded. -/
def discardExtras : Nat → State → Except FatalError State
  | 0, s => pure s
  | n + 1, s => do
    let (_, s) ← fetchExtra s
    discardExtras n s

/-- The body of the step after the fetch, on the fields of the instruction word; `s` has PC past that word. -/
def body (op a b : Nat) (s : State) : Except FatalError State :=
  if s.skip then
    if op = 0 ∧ a ≠ 0x00 ∧ a ≠ 0x01 then .error ⟨.undefinedNonBasic, none⟩
    else do
      let s ← discardExtras ((if op ≠ 0 then nw a else 0) + nw b) s
      pure (s.setSkip false)
  else if op = 0 ∧ a ≠ 0x00 ∧ a ≠ 0x01 then .error ⟨.undefinedNonBasic, none⟩
  else if (0x1 ≤ op ∧ op ≤ 0xb) ∧ (a = 0x1f ∨ 0x20 ≤ a) then .error ⟨.writeToLiteral, none⟩
  else if op ≠ 0 then do
    let (tA, s) ← resolve a s
    let (tB, s) ← resolve b s
    let vB := tB.read s
    let vA := tA.read s
    if op ≤ 0xb then pure (writeBack op tA vA.toNat vB.toNat s)
    else pure (s.setSkip (!cond op vA.toNat vB.toNat))
  else do
    let (tB, s) ← resolve b s
    let vB := tB.read s
    if a = 0x00 then pure (s.setStatus .halted)
    else do
      let s := s.setSp (BitVec.ofInt 16 ((s.sp.toNat : Int) - 1))
      checkAddr s s.sp
      pure ((s.writeMem s.sp s.pc).setPc vB)

/-- The step of the pseudocode summary, which is taken only while the run is on; from a halted or faulted state the answer
is the model's choice (assumption 6). -/
def step (s : State) : Outcome :=
  match s.status with
  | .halted => .fault .runHalted
  | .faulted => .fault (.runFaulted s.fault)
  | .running =>
    if s.pc.toNat ≥ s.memWords then .next (raiseFatal s none ⟨.fetchOutOfRange, some s.pc⟩)
    else
      let w := s.readMem s.pc
      match body (w.toNat % 16) (w.toNat / 16 % 64) (w.toNat / 1024) (s.setPc (wrap16 (s.pc.toNat + 1))) with
      | .ok t => .next t
      | .error f => .next (raiseFatal s (some w) f)

end Sys2Proof.Reference
end

