-- ==== Sys2Proof/Machine/Load.lean ====
section
/-! DEFINITION. What the host does before the first step: it fixes the parameters, resets the block and loads an image
(00_scope.md R18; 70_reset_and_hazards.md R294). -/

namespace Sys2Proof.Machine

/-- `MEM_WORDS` lies in its range, 1 to 65536 (00_scope.md R11). -/
def legalMemWords (memWords : Nat) : Bool := 1 ≤ memWords && memWords ≤ 65536

/-- The block after reset with the parameters `MEM_WORDS` and `INIT_MEM` (00_scope.md R11, R12): `initMem` lists the
initial contents of the cells, in any order; of two entries for one address the earlier counts. -/
def State.powerOn (memWords : Nat) (initMem : List Cell) : State :=
  .resetWith memWords (Memory.ofCells memWords initMem)

/-- The load: word `k` of the image at address `k`; an image longer than the memory is not loaded and no run starts
(20_memory.md R70; UNVERIFIED, assumption 13). -/
def State.load (s : State) (image : List Word) : Option State :=
  if image.length ≤ s.memWords then some (s.storeWords 0 image) else none

/-- The host's parameter `IMAGE_BYTE_ORDER` (00_scope.md R13). -/
inductive ByteOrder where
  | little
  | big
  deriving DecidableEq, Repr

/-- The words of an image file's bytes, which the block never sees (00_scope.md R13; 20_memory.md R64); an odd number
of bytes is no sequence of words (DESIGN CHOICE, assumption 13). -/
def imageWords (order : ByteOrder) : List (BitVec 8) → Option (List Word)
  | [] => some []
  | [_] => none
  | b0 :: b1 :: bytes =>
    (imageWords order bytes).map fun ws =>
      (match order with
        | .little => b1 ++ b0
        | .big => b0 ++ b1) :: ws

end Sys2Proof.Machine
end

