-- ==== Sys2Proof/Safety.lean ====
section
/-! DEFINITION. What counts as a state the block can be in and as an end by a fatal error, and the groups of
instructions the statements speak of. -/

namespace Sys2Proof.Machine

/-! ## The invariant -/

/-- What a fault record holds, by its code (60_exceptions.md R261 to R267): code 1 has no instruction word and names
PC, out of range; codes 2 and 3 name an address out of range; codes 4 and 5 have no address, and their instruction
word is one that raises them; code 6 is never raised. -/
def FaultRecord.wf (r : FaultRecord) (memWords : Nat) : Prop :=
  match r.code with
  | .fetchOutOfRange => r.instWord = none ∧ r.addr = some r.instPc ∧ memWords ≤ r.instPc.toNat
  | .extraWordOutOfRange | .operandAddressOutOfRange =>
    r.instPc.toNat < memWords ∧ r.instWord ≠ none ∧ ∃ addr, r.addr = some addr ∧ memWords ≤ addr.toNat
  | .writeToLiteral =>
    r.instPc.toNat < memWords ∧ r.addr = none ∧ ∃ w, r.instWord = some w ∧ (decode w).kind = .literalDestination
  | .undefinedNonBasic =>
    r.instPc.toNat < memWords ∧ r.addr = none ∧ ∃ w, r.instWord = some w ∧ (decode w).kind = .undefinedNonBasic
  | .unknownOperandClass => False

/-- The invariant of the machine: the capacity is in its range (00_scope.md R11); memory is in its canonical form and
lists only cells the block owns (20_memory.md R60); a fault record stands exactly in the faulted state (10_state.md
R46) and is one its code allows; the block has halted only with `skip` clear (70_reset_and_hazards.md R296). -/
structure State.Inv (s : State) : Prop where
  memWords_pos : 1 ≤ s.memWords
  memWords_le : s.memWords ≤ 65536
  mem_wf : Memory.wf s.mem = true
  mem_within : Memory.within s.mem s.memWords = true
  fault_iff : s.status = .faulted ↔ s.fault ≠ none
  fault_wf : ∀ r, s.fault = some r → r.wf s.memWords
  halted_skip : s.status = .halted → s.skip = false

/-! ## Ends by a fatal error -/

/-- The step ends the run by a fatal error with this record; nothing is said of the rest of the state, which the spec
leaves unspecified (60_exceptions.md R270). -/
def EndsFaulted (out : Outcome) (r : FaultRecord) : Prop :=
  ∃ t, out = .next t ∧ t.status = .faulted ∧ t.fault = some r

/-! ## What the rules of one instruction share -/

/-- The words with opcode `op` are the instruction `mk`, with operand A's class in bits [9:4] and operand B's in bits
[15:10] (30_encoding.md R92, R102). -/
def EncodedAs (op : BitVec 4) (mk : OperandClass → OperandClass → Instr) : Prop :=
  ∀ w, opField w = op → decode w = mk (.ofCode (aField w)) (.ofCode (bField w))

/-- The exceptions common to the opcodes that write operand A (41_move_arith.md, template): code 4 for a literal
operand A, before any other; else the operands' first. -/
def WritingExceptions (mk : OperandClass → OperandClass → Instr) : Prop :=
  (∀ a b s, a.isLiteral = true →
    EndsFaulted (exec (mk a b) s) ⟨.writeToLiteral, s.pc, some (encodeWord (mk a b)), none⟩) ∧
  ∀ a b s f, a.isLiteral = false → operandsFault a b s = some f →
    EndsFaulted (exec (mk a b) s) ⟨f.code, s.pc, some (encodeWord (mk a b)), f.addr⟩

/-- The exceptions of a conditional: the operands' first, never code 4 (43_conditional.md R220). -/
def ConditionalExceptions (mk : OperandClass → OperandClass → Instr) : Prop :=
  ∀ a b s f, operandsFault a b s = some f →
    EndsFaulted (exec (mk a b) s) ⟨f.code, s.pc, some (encodeWord (mk a b)), f.addr⟩

/-- The opcodes that write operand A and leave O alone as a side effect (10_state.md R41). -/
def plainWriters (a b : OperandClass) : List Instr := [.set a b, .mod a b, .and a b, .bor a b, .xor a b]

/-- The six opcodes that write O as a side effect (10_state.md R39). -/
def flagWriters (a b : OperandClass) : List Instr := [.add a b, .sub a b, .mul a b, .div a b, .shl a b, .shr a b]

/-- The four conditionals (43_conditional.md R220). -/
def conditionals (a b : OperandClass) : List Instr := [.ife a b, .ifn a b, .ifg a b, .ifb a b]

/-- Everything a step that neither halts nor faults leaves alone whatever it does: the run goes on, there is no fault
record, the capacity is fixed (00_scope.md R11), nothing is drawn. -/
def ControlUnchanged (s t : State) : Prop :=
  t.status = s.status ∧ t.fault = s.fault ∧ t.memWords = s.memWords ∧ t.draws = s.draws

end Sys2Proof.Machine
end

