-- ==== Sys2Proof/Certificates/Slice0/Obligations.lean ====
section
/-! DEFINITION. The statements for the provers. `s` is the state at an instruction's first word. A statement that rests
on a decision the spec marks as its own (D<n> of 92_eei_decisions.md) or on a choice of the model names it; the order
of operands and writes in a rule of one instruction is that of the rule's own pseudocode, and the numbers of the fault
codes are decision D13. -/

open Sys2Proof Sys2Proof.Machine

/-! ## Encoding -/

/-- The worked encodings of 30_encoding.md section 7 and words of 95_test_vectors.md (P3, V116, V118, V77) decode to
the instructions they stand for. -/
def Obligations.SpecWordsDecode : Prop :=
  decode 0x7c01 = .set (.reg .a) .nextLit ∧ decode 0x8802 = .add (.reg .a) (.lit 2) ∧
  decode 0x61c1 = .set .pc .pop ∧ decode 0x7d01 = .set (.indexed .a) .nextLit ∧
  decode 0x840c = .ife (.reg .a) (.lit 1) ∧ decode 0x7c10 = .jsr .nextLit ∧ decode 0x0000 = .halt (.reg .a) ∧
  decode 0x84b7 = .shl (.ind .x) (.lit 1) ∧ decode 0x8009 = .and (.reg .a) (.lit 0) ∧
  decode 0x0020 = .undefinedNonBasic 0x02 0x00 ∧ decode 0x0251 = .set (.lit 5) (.reg .a)

/-- R91: `op = w[3:0]`, `a = w[9:4]`, `b = w[15:10]`, and `w = (b << 10) | (a << 4) | op`; every word is one triple and
every triple one word. -/
def Obligations.InstructionWordFields : Prop :=
  (∀ w : Word, (opField w).toNat = w.toNat % 16 ∧ (aField w).toNat = w.toNat / 16 % 64 ∧
    (bField w).toNat = w.toNat / 1024) ∧
  (∀ op a b, (joinFields op a b).toNat = b.toNat * 1024 + a.toNat * 16 + op.toNat) ∧
  (∀ w, joinFields (opField w) (aField w) (bField w) = w) ∧
  ∀ op a b, opField (joinFields op a b) = op ∧ aField (joinFields op a b) = a ∧ bField (joinFields op a b) = b

/-- R95 and R97, and the inline literals (30_encoding.md section 2): the register index of classes 0x00 to 0x17 is `c
& 0x7`; the inline literal of class `c` is `c - 0x20`, zero-extended; `nw(c)` is 1 for 0x10 to 0x17, 0x1e and 0x1f,
and 0 otherwise. -/
def Obligations.OperandCodesReadAsTabled : Prop :=
  ∀ (c : BitVec 6) (s : State),
    (c.toNat < 0x08 → ∃ r, OperandClass.ofCode c = .reg r ∧ r.index = c.toNat % 8) ∧
    (0x08 ≤ c.toNat → c.toNat < 0x10 → ∃ r, OperandClass.ofCode c = .ind r ∧ r.index = c.toNat % 8) ∧
    (0x10 ≤ c.toNat → c.toNat < 0x18 → ∃ r, OperandClass.ofCode c = .indexed r ∧ r.index = c.toNat % 8) ∧
    (0x20 ≤ c.toNat → ∃ n, OperandClass.ofCode c = .lit n ∧
      operandTarget (.lit n) s = .lit (BitVec.ofNat 16 (c.toNat - 0x20))) ∧
    (OperandClass.ofCode c).extraWords =
      if (0x10 ≤ c.toNat ∧ c.toNat < 0x18) ∨ c.toNat = 0x1e ∨ c.toNat = 0x1f then 1 else 0

/-- Decoding the word of a well-formed instruction gives it back, and encoding what a word decodes to gives the word
back: every word is a well-formed instruction's (30_encoding.md sections 1 to 3). -/
def Obligations.DecodeEncodeAgree : Prop :=
  (∀ i : Instr, i.wellFormed = true → decode (encodeWord i) = i) ∧
  ∀ w, (decode w).wellFormed = true ∧ encodeWord (decode w) = w

/-- An instruction's words, followed by any others, read back as the instruction, its own extra words and the rest
(30_encoding.md section 2; one extra word for each operand that needs one is decision D6). -/
def Obligations.EncodedWordsReadBack : Prop :=
  ∀ (i : Instr) (extras rest : List Word), i.wellFormed = true → i.extraWords = some extras.length →
    decodeStream (encode i extras ++ rest) = .ok ⟨i, extras, rest⟩

/-- R104: a basic instruction is `1 + nw(a) + nw(b)` words long, 1 to 3; HALT and JSR `1 + nw(b)`, 1 or 2; an undefined
non-basic instruction has no defined length. -/
def Obligations.LengthFromFirstWord : Prop :=
  ∀ w : Word,
    let a := (OperandClass.ofCode (aField w)).extraWords
    let b := (OperandClass.ofCode (bField w)).extraWords
    (opField w ≠ 0 → (decode w).length = some (1 + a + b) ∧ 1 + a + b ≤ 3) ∧
    (opField w = 0 → (aField w).toNat < 2 → (decode w).length = some (1 + b) ∧ 1 + b ≤ 2) ∧
    (opField w = 0 → 2 ≤ (aField w).toNat → (decode w).length = none)

/-- Every word is of exactly one kind: legal basic, basic with a literal destination, HALT, JSR, undefined non-basic
(30_encoding.md section 5). -/
def Obligations.EveryWordClassified : Prop :=
  ∀ w : Word,
    let op := (opField w).toNat
    let a := (aField w).toNat
    ((decode w).kind = .legalBasic ↔ op ≠ 0 ∧ ¬ (op ≤ 0xb ∧ (a = 0x1f ∨ 0x20 ≤ a))) ∧
    ((decode w).kind = .literalDestination ↔ op ≠ 0 ∧ op ≤ 0xb ∧ (a = 0x1f ∨ 0x20 ≤ a)) ∧
    ((decode w).kind = .halt ↔ op = 0 ∧ a = 0) ∧
    ((decode w).kind = .jsr ↔ op = 0 ∧ a = 1) ∧
    ((decode w).kind = .undefinedNonBasic ↔ op = 0 ∧ 2 ≤ a)

/-! ## Reset and memory -/

/-- R32: at reset every general register is 0. -/
def Obligations.RegistersResetToZero : Prop :=
  (∀ memWords initMem r, (State.powerOn memWords initMem).reg r = 0) ∧ ∀ r, State.reset.reg r = 0

/-- The reset state (70_reset_and_hazards.md section 1): SP one past the last cell (decision D2), PC and O 0, `skip`
clear, running, no fault record (D3), every cell at its `INIT_MEM` value (D4); an image longer than the memory is not
loaded (D27). -/
def Obligations.ResetState : Prop :=
  ∀ memWords initMem,
    let s := State.powerOn memWords initMem
    s.sp = BitVec.ofNat 16 memWords ∧ s.pc = 0 ∧ s.o = 0 ∧ s.skip = false ∧ s.status = .running ∧ s.fault = none ∧
    s.memWords = memWords ∧
    (∀ (addr v : Word), addr.toNat < memWords → List.lookup addr.toNat initMem = some v → s.readMem addr = v) ∧
    ∀ image, memWords < image.length → s.load image = none

/-- R63: a read gives the word most recently written to the address, else the word the load put there, else the word
that was there before the load, which at reset is the one `INIT_MEM` gives; a write changes nothing else. -/
def Obligations.MemoryReadsLastWritten : Prop :=
  (∀ s : State, Memory.wf s.mem = true → ∀ addr v, (s.writeMem addr v).readMem addr = v) ∧
  (∀ (s : State) addr other v, addr ≠ other → (s.writeMem addr v).readMem other = s.readMem other) ∧
  (∀ (s : State) addr v, { s.writeMem addr v with mem := s.mem } = s) ∧
  (∀ (s : State) image, Memory.wf s.mem = true → s.memWords ≤ 65536 → image.length ≤ s.memWords →
    ∃ t, s.load image = some t ∧ { t with mem := s.mem } = s ∧
      (∀ (k : Nat) (hk : k < image.length), t.readMem (BitVec.ofNat 16 k) = image[k]) ∧
      ∀ addr : Word, image.length ≤ addr.toNat → t.readMem addr = s.readMem addr) ∧
  ∀ memWords initMem (addr v : Word), addr.toNat < memWords → List.lookup addr.toNat initMem = some v →
    (State.powerOn memWords initMem).readMem addr = v

/-- The canonical form of memory, which is the model's own (assumptions 1 and 2): a write keeps it, and two canonical
memories that read alike at every address are equal. -/
def Obligations.CanonicalMemory : Prop :=
  (∀ m addr v, Memory.wf m = true → Memory.wf (Memory.set m addr v) = true) ∧
  ∀ m m', Memory.wf m = true → Memory.wf m' = true → (∀ addr, Memory.get m addr = Memory.get m' addr) → m = m'

/-! ## Operands -/

/-- R147: what resolving each operand class does, its target, and the errors it raises. -/
def Obligations.OperandTable : Prop :=
  ∀ (s : State) (r : Reg) (n : BitVec 5),
    let outOfRange (addr : Word) : FatalError := ⟨.operandAddressOutOfRange, some addr⟩
    let noExtraWord : FatalError := ⟨.extraWordOutOfRange, some s.pc⟩
    let next := s.readMem s.pc
    let past := s.setPc (s.pc + 1)
    resolve (.reg r) s = .ok (.reg r, s) ∧
    resolve (.ind r) s =
      (if (s.reg r).toNat < s.memWords then .ok (.mem (s.reg r), s) else .error (outOfRange (s.reg r))) ∧
    resolve (.indexed r) s =
      (if s.memWords ≤ s.pc.toNat then .error noExtraWord
       else if (next + s.reg r).toNat < s.memWords then .ok (.mem (next + s.reg r), past)
       else .error (outOfRange (next + s.reg r))) ∧
    resolve .pop s =
      (if s.sp.toNat < s.memWords then .ok (.mem s.sp, s.setSp (s.sp + 1)) else .error (outOfRange s.sp)) ∧
    resolve .peek s = (if s.sp.toNat < s.memWords then .ok (.mem s.sp, s) else .error (outOfRange s.sp)) ∧
    resolve .push s =
      (if (s.sp - 1).toNat < s.memWords then .ok (.mem (s.sp - 1), s.setSp (s.sp - 1))
       else .error (outOfRange (s.sp - 1))) ∧
    resolve .sp s = .ok (.sp, s) ∧ resolve .pc s = .ok (.pc, s) ∧ resolve .o s = .ok (.o, s) ∧
    resolve .indNext s =
      (if s.memWords ≤ s.pc.toNat then .error noExtraWord
       else if next.toNat < s.memWords then .ok (.mem next, past) else .error (outOfRange next)) ∧
    resolve .nextLit s = (if s.memWords ≤ s.pc.toNat then .error noExtraWord else .ok (.lit next, past)) ∧
    resolve (.lit n) s = .ok (.lit (BitVec.ofNat 16 n.toNat), s)

/-- R151: reading and writing a target; an instruction that would write a literal faults. -/
def Obligations.TargetsReadAndWrite : Prop :=
  ∀ (s : State) (r : Reg) (addr v : Word),
    (Target.reg r).read s = s.regs.get r ∧ Target.sp.read s = s.sp ∧ Target.pc.read s = s.pc ∧
    Target.o.read s = s.o ∧ (Target.mem addr).read s = s.readMem addr ∧ (Target.lit v).read s = v ∧
    (Target.reg r).write v s = { s with regs := s.regs.set r v } ∧ Target.sp.write v s = { s with sp := v } ∧
    Target.pc.write v s = { s with pc := v } ∧ Target.o.write v s = { s with o := v } ∧
    (Target.mem addr).write v s = s.writeMem addr v ∧
    (∀ q, (s.regs.set r v).get q = if q = r then v else s.regs.get q) ∧
    ∀ a b i t, i ∈ plainWriters a b ++ flagWriters a b → a.isLiteral = true → exec i s = .next t → t.status = .faulted

/-- The order of resolution, A completely and then B (decision D7), the reads after both (R150; D8), and the order of
the operands' fatal errors (D15): `operands` answers the values in range, and else the first error. -/
def Obligations.OperandsResolveInOrder : Prop :=
  ∀ a b s,
    (OperandsInRange a b s ↔ operandsFault a b s = none) ∧
    (OperandsInRange a b s → operands a b s = .ok (resolvedOperands a b s)) ∧
    ∀ f, operandsFault a b s = some f → operands a b s = .error f

/-- PC as an operand's value, and the PC that JSR pushes, is the address of the word after the whole instruction
(40_execution_cycle.md section 5). -/
def Obligations.PcReadsAsNextInstruction : Prop :=
  (∀ a b s, (resolvedOperands a b s).st.pc = s.pc + BitVec.ofNat 16 (1 + a.extraWords + b.extraWords)) ∧
  (∀ a s, (resolvedOperands a .pc s).vB = s.pc + BitVec.ofNat 16 (1 + a.extraWords)) ∧
  (∀ b s, (resolvedOperands .pc b s).vA = s.pc + BitVec.ofNat 16 (1 + b.extraWords)) ∧
  ∀ b s t, Memory.wf s.mem = true → s.status = .running → exec (.jsr b) s = .next t → t.status ≠ .faulted →
    t.readMem t.sp = s.pc + BitVec.ofNat 16 (1 + b.extraWords)

/-- `SET PUSH, POP` lowers SP, pops the same cell and writes its own value back, leaving SP and memory as they were
(41_move_arith.md section 2; the order of the two stack effects is decision D7). -/
def Obligations.SetPushPopLeavesStack : Prop :=
  ∀ s : State, Memory.wf s.mem = true → (s.sp - 1).toNat < s.memWords →
    exec (.set .push .pop) s = .next (s.setPc (s.pc + 1))

/-! ## The move and arithmetic instructions -/

/-- R180, SET. -/
def Obligations.SetRule : Prop :=
  EncodedAs 0x1 .set ∧ WritingExceptions .set ∧
  ∀ a b s, a.isLiteral = false → OperandsInRange a b s →
    let p := resolvedOperands a b s
    exec (.set a b) s = .next (p.tA.write p.vB p.st)

/-- R181, ADD: the sum modulo 2^16; O is 1 if it exceeds 0xffff, else 0, and is written last. -/
def Obligations.AddRule : Prop :=
  EncodedAs 0x2 .add ∧ WritingExceptions .add ∧
  ∀ a b s, a.isLiteral = false → OperandsInRange a b s →
    let p := resolvedOperands a b s
    exec (.add a b) s =
      .next ((p.tA.write (p.vA + p.vB) p.st).setO (if 0xffff < p.vA.toNat + p.vB.toNat then 1 else 0))

/-- R182, SUB: the difference modulo 2^16; O is 0xffff on a borrow, else 0, and is written last. -/
def Obligations.SubRule : Prop :=
  EncodedAs 0x3 .sub ∧ WritingExceptions .sub ∧
  ∀ a b s, a.isLiteral = false → OperandsInRange a b s →
    let p := resolvedOperands a b s
    exec (.sub a b) s = .next ((p.tA.write (p.vA - p.vB) p.st).setO (if p.vA < p.vB then 0xffff else 0))

/-- R183, MUL: the low word of the 32-bit product; O is its high word and is written last. -/
def Obligations.MulRule : Prop :=
  EncodedAs 0x4 .mul ∧ WritingExceptions .mul ∧
  ∀ a b s, a.isLiteral = false → OperandsInRange a b s →
    let p := resolvedOperands a b s
    let product : BitVec 32 := p.vA.setWidth 32 * p.vB.setWidth 32
    exec (.mul a b) s =
      .next ((p.tA.write (product.extractLsb' 0 16) p.st).setO (product.extractLsb' 16 16))

/-- R184, DIV: with a zero divisor 0 to A and to O; else O, the low word of `(vA << 16) / vB`, is written first and the
quotient last. -/
def Obligations.DivRule : Prop :=
  EncodedAs 0x5 .div ∧ WritingExceptions .div ∧
  ∀ a b s, a.isLiteral = false → OperandsInRange a b s →
    let p := resolvedOperands a b s
    let fraction : BitVec 32 := (p.vA.setWidth 32 <<< 16) / p.vB.setWidth 32
    exec (.div a b) s =
      .next (if p.vB = 0 then (p.tA.write 0 p.st).setO 0
        else p.tA.write (p.vA / p.vB) (p.st.setO (fraction.extractLsb' 0 16)))

/-- R185, MOD: the remainder, 0 with a zero divisor. -/
def Obligations.ModRule : Prop :=
  EncodedAs 0x6 .mod ∧ WritingExceptions .mod ∧
  ∀ a b s, a.isLiteral = false → OperandsInRange a b s →
    let p := resolvedOperands a b s
    exec (.mod a b) s = .next (p.tA.write (if p.vB = 0 then 0 else p.vA % p.vB) p.st)

/-! ## The shift and bitwise instructions -/

/-- SHL (42_shift_logic.md section 2; amounts of 32 or more are decision D12) by the whole of `vB`: O, bits 31 to 16
of the shifted value, is written first and the low word last. -/
def Obligations.ShlRule : Prop :=
  EncodedAs 0x7 .shl ∧ WritingExceptions .shl ∧
  ∀ a b s, a.isLiteral = false → OperandsInRange a b s →
    let p := resolvedOperands a b s
    let shifted : BitVec 32 := p.vA.setWidth 32 <<< p.vB.toNat
    exec (.shl a b) s =
      .next (p.tA.write (shifted.extractLsb' 0 16) (p.st.setO (shifted.extractLsb' 16 16)))

/-- SHR (42_shift_logic.md section 2; amounts of 32 or more are decision D12), logical, by the whole of `vB`: O, the
bits shifted out, left-aligned, is written first and the result last. -/
def Obligations.ShrRule : Prop :=
  EncodedAs 0x8 .shr ∧ WritingExceptions .shr ∧
  ∀ a b s, a.isLiteral = false → OperandsInRange a b s →
    let p := resolvedOperands a b s
    let shifted : BitVec 32 := (p.vA.setWidth 32 <<< 16) >>> p.vB.toNat
    exec (.shr a b) s =
      .next (p.tA.write (shifted.extractLsb' 16 16) (p.st.setO (shifted.extractLsb' 0 16)))

/-- R202, AND. -/
def Obligations.AndRule : Prop :=
  EncodedAs 0x9 .and ∧ WritingExceptions .and ∧
  ∀ a b s, a.isLiteral = false → OperandsInRange a b s →
    let p := resolvedOperands a b s
    exec (.and a b) s = .next (p.tA.write (p.vA &&& p.vB) p.st)

/-- R203, BOR. -/
def Obligations.BorRule : Prop :=
  EncodedAs 0xa .bor ∧ WritingExceptions .bor ∧
  ∀ a b s, a.isLiteral = false → OperandsInRange a b s →
    let p := resolvedOperands a b s
    exec (.bor a b) s = .next (p.tA.write (p.vA ||| p.vB) p.st)

/-- R204, XOR. -/
def Obligations.XorRule : Prop :=
  EncodedAs 0xb .xor ∧ WritingExceptions .xor ∧
  ∀ a b s, a.isLiteral = false → OperandsInRange a b s →
    let p := resolvedOperands a b s
    exec (.xor a b) s = .next (p.tA.write (p.vA ^^^ p.vB) p.st)

/-! ## The conditional instructions -/

/-- R221, IFE: `skip` is set unless the operands are equal; a literal operand A is accepted. -/
def Obligations.IfeRule : Prop :=
  EncodedAs 0xc .ife ∧ ConditionalExceptions .ife ∧
  ∀ a b s, OperandsInRange a b s →
    let p := resolvedOperands a b s
    exec (.ife a b) s = .next (p.st.setSkip (decide (p.vA ≠ p.vB)))

/-- R222, IFN: `skip` is set if the operands are equal. -/
def Obligations.IfnRule : Prop :=
  EncodedAs 0xd .ifn ∧ ConditionalExceptions .ifn ∧
  ∀ a b s, OperandsInRange a b s →
    let p := resolvedOperands a b s
    exec (.ifn a b) s = .next (p.st.setSkip (decide (p.vA = p.vB)))

/-- R223, IFG: `skip` is set unless operand A is the greater, unsigned. -/
def Obligations.IfgRule : Prop :=
  EncodedAs 0xe .ifg ∧ ConditionalExceptions .ifg ∧
  ∀ a b s, OperandsInRange a b s →
    let p := resolvedOperands a b s
    exec (.ifg a b) s = .next (p.st.setSkip (p.vA.ule p.vB))

/-- R224, IFB: `skip` is set if the operands have no set bit in common. -/
def Obligations.IfbRule : Prop :=
  EncodedAs 0xf .ifb ∧ ConditionalExceptions .ifb ∧
  ∀ a b s, OperandsInRange a b s →
    let p := resolvedOperands a b s
    exec (.ifb a b) s = .next (p.st.setSkip (decide (∀ k : Fin 16, ¬ (p.vA.getLsbD k = true ∧ p.vB.getLsbD k = true))))

/-! ## The non-basic instructions -/

/-- JSR (44_nonbasic.md, R241): operand B is read as the target; SP is lowered; the address after the whole instruction
is stored in the new top cell; PC takes the target. A top cell out of range raises code 3 (decision D28). -/
def Obligations.JsrRule : Prop :=
  ∀ b s,
    let sB := afterOperand b s.advance
    let target := (operandTarget b s.advance).read sB
    let top := sB.sp - 1
    (∀ f, operandFault b s.advance = some f →
      EndsFaulted (exec (.jsr b) s) ⟨f.code, s.pc, some (encodeWord (.jsr b)), f.addr⟩) ∧
    (OperandInRange b s.advance → s.memWords ≤ top.toNat →
      EndsFaulted (exec (.jsr b) s) ⟨.operandAddressOutOfRange, s.pc, some (encodeWord (.jsr b)), some top⟩) ∧
    (OperandInRange b s.advance → top.toNat < s.memWords →
      exec (.jsr b) s =
        .next { sB with
          sp := top, mem := Memory.set s.mem top.toNat (s.pc + BitVec.ofNat 16 (1 + b.extraWords)), pc := target })

/-- HALT (44_nonbasic.md, R242): operand B is evaluated, with its side effects and errors (decision D16), and the run
ends. -/
def Obligations.HaltRule : Prop :=
  ∀ b s,
    (∀ f, operandFault b s.advance = some f →
      EndsFaulted (exec (.halt b) s) ⟨f.code, s.pc, some (encodeWord (.halt b)), f.addr⟩) ∧
    (OperandInRange b s.advance →
      exec (.halt b) s =
        .next { s with
          status := .halted, sp := spAfterOperand b s.sp, pc := s.pc + BitVec.ofNat 16 (1 + b.extraWords) })

/-- An undefined non-basic opcode (44_nonbasic.md, R243): code 5, executed or skipped (decision D10). -/
def Obligations.UndefinedNonBasicRule : Prop :=
  (∀ w : Word, opField w = 0 → 2 ≤ (aField w).toNat → decode w = .undefinedNonBasic (aField w) (bField w)) ∧
  ∀ opcode b s,
    let i := Instr.undefinedNonBasic opcode b
    (∃ t, exec i s = .next t ∧ t.status = .faulted ∧
      t.fault = some ⟨.undefinedNonBasic, s.pc, some (encodeWord i), none⟩) ∧
    EndsFaulted (skipInstr i s) ⟨.undefinedNonBasic, s.pc, some (encodeWord i), none⟩

/-! ## What an instruction leaves unchanged -/

/-- The frame of SET, MOD, AND, BOR and XOR: nothing changes but operand A's target, SP by the operands' stack effects,
and PC. -/
def Obligations.FrameOfPlainWriters : Prop :=
  ∀ a b i s t, i ∈ plainWriters a b → s.status = .running → exec i s = .next t → t.status ≠ .faulted →
    let tA := operandTarget a s.advance
    (∀ r, tA ≠ .reg r → t.reg r = s.reg r) ∧
    (tA ≠ .sp → t.sp = spAfterOperand b (spAfterOperand a s.sp)) ∧
    (tA ≠ .pc → t.pc = s.pc + BitVec.ofNat 16 (1 + a.extraWords + b.extraWords)) ∧
    (tA ≠ .o → t.o = s.o) ∧
    (∀ addr, tA ≠ .mem addr → t.readMem addr = s.readMem addr) ∧
    t.skip = s.skip ∧ ControlUnchanged s t

/-- The frame of ADD, SUB, MUL, DIV, SHL and SHR, which also write O. -/
def Obligations.FrameOfFlagWriters : Prop :=
  ∀ a b i s t, i ∈ flagWriters a b → s.status = .running → exec i s = .next t → t.status ≠ .faulted →
    let tA := operandTarget a s.advance
    (∀ r, tA ≠ .reg r → t.reg r = s.reg r) ∧
    (tA ≠ .sp → t.sp = spAfterOperand b (spAfterOperand a s.sp)) ∧
    (tA ≠ .pc → t.pc = s.pc + BitVec.ofNat 16 (1 + a.extraWords + b.extraWords)) ∧
    (∀ addr, tA ≠ .mem addr → t.readMem addr = s.readMem addr) ∧
    t.skip = s.skip ∧ ControlUnchanged s t

/-- The frame of the conditionals (R220): no register, no memory cell and not O is written; SP moves by the operands'
stack effects; PC changes only by the fetches. -/
def Obligations.FrameOfConditionals : Prop :=
  ∀ a b i s t, i ∈ conditionals a b → s.status = .running → exec i s = .next t → t.status ≠ .faulted →
    t.regs = s.regs ∧ t.sp = spAfterOperand b (spAfterOperand a s.sp) ∧
    t.pc = s.pc + BitVec.ofNat 16 (1 + a.extraWords + b.extraWords) ∧ t.o = s.o ∧ t.mem = s.mem ∧
    (∀ addr, t.readMem addr = s.readMem addr) ∧ ControlUnchanged s t

/-- The frame of JSR: nothing changes but PC, SP (lowered by one after operand B's stack effect) and the new top
cell. -/
def Obligations.FrameOfJsr : Prop :=
  ∀ b s t, s.status = .running → exec (.jsr b) s = .next t → t.status ≠ .faulted →
    t.regs = s.regs ∧ t.o = s.o ∧ t.sp = spAfterOperand b s.sp - 1 ∧
    (∀ addr, addr ≠ spAfterOperand b s.sp - 1 → t.readMem addr = s.readMem addr) ∧
    t.skip = s.skip ∧ ControlUnchanged s t

/-- The frame of HALT: nothing changes but the status, PC by the fetches, and SP by operand B's stack effect. -/
def Obligations.FrameOfHalt : Prop :=
  ∀ b s t, s.status = .running → exec (.halt b) s = .next t → t.status ≠ .faulted →
    t.status = .halted ∧ t.regs = s.regs ∧ t.o = s.o ∧ t.sp = spAfterOperand b s.sp ∧
    t.pc = s.pc + BitVec.ofNat 16 (1 + b.extraWords) ∧ t.mem = s.mem ∧
    (∀ addr, t.readMem addr = s.readMem addr) ∧
    t.skip = s.skip ∧ t.fault = s.fault ∧ t.memWords = s.memWords ∧ t.draws = s.draws

/-! ## Rules of the whole machine -/

/-- R41: SET, MOD, AND, BOR, XOR, the conditionals, JSR and HALT leave O unchanged, except where operand A of SET, MOD,
AND, BOR or XOR is O, which then receives the result. -/
def Obligations.OUnchangedUnlessDestination : Prop :=
  (∀ a b i s t, (i ∈ plainWriters a b ∧ a ≠ .o) ∨ i ∈ conditionals a b ∨ i = .jsr b ∨ i = .halt b →
    s.status = .running → exec i s = .next t → t.status ≠ .faulted → t.o = s.o) ∧
  ∀ b s, OperandsInRange .o b s →
    let p := resolvedOperands .o b s
    exec (.set .o b) s = .next (p.st.setO p.vB) ∧
    exec (.mod .o b) s = .next (p.st.setO (if p.vB = 0 then 0 else s.o % p.vB)) ∧
    exec (.and .o b) s = .next (p.st.setO (s.o &&& p.vB)) ∧
    exec (.bor .o b) s = .next (p.st.setO (s.o ||| p.vB)) ∧
    exec (.xor .o b) s = .next (p.st.setO (s.o ^^^ p.vB))

/-- With O as destination the later write wins (41_move_arith.md section 1; decision D11): ADD, SUB and MUL leave the
side-effect value, DIV, SHL and SHR the result, DIV by zero 0. The results of SHL and SHR are those of 42_shift_logic.md
section 2, for every amount; amounts of 32 or more are decision D12. -/
def Obligations.OAsDestinationOfFlagWriters : Prop :=
  ∀ b s, OperandsInRange .o b s →
    let p := resolvedOperands .o b s
    exec (.add .o b) s = .next (p.st.setO (if 0xffff < s.o.toNat + p.vB.toNat then 1 else 0)) ∧
    exec (.sub .o b) s = .next (p.st.setO (if s.o < p.vB then 0xffff else 0)) ∧
    exec (.mul .o b) s = .next (p.st.setO ((s.o.setWidth 32 * p.vB.setWidth 32).extractLsb' 16 16)) ∧
    exec (.div .o b) s = .next (p.st.setO (if p.vB = 0 then 0 else s.o / p.vB)) ∧
    exec (.shl .o b) s = .next (p.st.setO (s.o <<< p.vB.toNat)) ∧
    exec (.shr .o b) s = .next (p.st.setO (s.o >>> p.vB.toNat))

/-- Where general registers, SP and memory change in a step that does not fault (10_state.md, summary of state): a
general register only as the destination of an opcode that writes operand A; SP only so, by a stack class, or by JSR; a
memory cell only as such a destination or as JSR's new top cell. -/
def Obligations.StateWrittenOnlyWhereNamed : Prop :=
  ∀ i s t, s.status = .running → exec i s = .next t → t.status ≠ .faulted →
    let writes (tA : Target) := ∃ a b, i ∈ plainWriters a b ++ flagWriters a b ∧ operandTarget a s.advance = tA
    let uses (c : OperandClass) :=
      (∃ op a b, i.form = .basic op a b ∧ (a = c ∨ b = c)) ∨ ∃ op b, i.form = .nonBasic op b ∧ b = c
    (∀ r, t.reg r ≠ s.reg r → writes (.reg r)) ∧
    (t.sp ≠ s.sp → writes .sp ∨ uses .pop ∨ uses .push ∨ ∃ b, i = .jsr b) ∧
    ∀ addr, t.readMem addr ≠ s.readMem addr →
      writes (.mem addr) ∨ ∃ b, i = .jsr b ∧ addr = spAfterOperand b s.sp - 1

/-- A step that does not fault leaves `skip` set only where it executes a conditional whose condition is false of its
operands' values (10_state.md section 5; 43_conditional.md sections 1 and 2); every other one leaves it clear. -/
def Obligations.SkipSetOnlyByConditionals : Prop :=
  ∀ s t, step s = .next t → t.status ≠ .faulted → t.skip = true →
    s.skip = false ∧ ∃ a b, OperandsInRange a b s ∧
      ConditionFalse (decode (s.readMem s.pc)) a b (resolvedOperands a b s).vA (resolvedOperands a b s).vB

/-! ## The step -/

/-- A step runs the instruction that the word at PC decodes to: it is executed from this state if `skip` is clear, and
consumed if `skip` is set; nothing is added around it (40_execution_cycle.md section 1). -/
def Obligations.StepRunsDecodedInstruction : Prop :=
  ∀ s i, s.status = .running → s.pc.toNat < s.memWords → i.wellFormed = true → s.readMem s.pc = encodeWord i →
    (s.skip = false → step s = exec i s) ∧ (s.skip = true → step s = skipInstr i s)

/-- R262, code 1: raised by the fetch of an instruction word when PC is at or beyond `MEM_WORDS`, with `inst_pc`, `addr`
and PC equal and no instruction word; never when `MEM_WORDS` is 65536. -/
def Obligations.FetchBeyondMemoryFaults : Prop :=
  (∀ s, s.status = .running → s.memWords ≤ s.pc.toNat →
    EndsFaulted (step s) ⟨.fetchOutOfRange, s.pc, none, some s.pc⟩) ∧
  (∀ s t r, s.status = .running → step s = .next t → t.fault = some r → s.fault = none →
    r.code = .fetchOutOfRange → s.memWords ≤ s.pc.toNat ∧ r = ⟨.fetchOutOfRange, s.pc, none, some s.pc⟩) ∧
  ∀ s t r, s.status = .running → s.fault = none → s.memWords = 65536 → step s = .next t → t.fault = some r →
    r.code ≠ .fetchOutOfRange

/-- A skipped instruction is consumed without effect (40_execution_cycle.md section 2; decisions D9, D10): an undefined
non-basic one raises code 5; an extra word out of range raises code 2; any other moves PC past the whole instruction
and clears `skip`, and nothing else changes. -/
def Obligations.SkippedInstructionConsumed : Prop :=
  ∀ s i, s.status = .running → s.skip = true → s.pc.toNat < s.memWords → i.wellFormed = true →
    s.readMem s.pc = encodeWord i →
    (i.length = none → EndsFaulted (step s) ⟨.undefinedNonBasic, s.pc, some (encodeWord i), none⟩) ∧
    (∀ n, i.length = some n → (∀ k, 1 ≤ k → k < n → (s.pc + BitVec.ofNat 16 k).toNat < s.memWords) →
      step s = .next { s with pc := s.pc + BitVec.ofNat 16 n, skip := false }) ∧
    ∀ n k, i.length = some n → 1 ≤ k → k < n → s.memWords ≤ (s.pc + BitVec.ofNat 16 k).toNat →
      (∀ j, 1 ≤ j → j < k → (s.pc + BitVec.ofNat 16 j).toNat < s.memWords) →
      EndsFaulted (step s)
        ⟨.extraWordOutOfRange, s.pc, some (encodeWord i), some (s.pc + BitVec.ofNat 16 k)⟩

/-- The run status (10_state.md section 6; its value at reset is decision D3): it is `Running` at reset, becomes
`Halted` when the halt instruction executes and `Faulted` when a fatal error is raised, and only then; no step is
taken from `Halted` or `Faulted`. -/
def Obligations.StatusChangesAsStated : Prop :=
  (∀ memWords initMem, (State.powerOn memWords initMem).status = .running) ∧
  (∀ b s, OperandInRange b s.advance → ∃ t, exec (.halt b) s = .next t ∧ t.status = .halted) ∧
  (∀ s w f, (raiseFatal s w f).status = .faulted) ∧
  (∀ s t, step s = .next t → t.status = .halted →
    s.skip = false ∧ s.pc.toNat < s.memWords ∧ ∃ b, decode (s.readMem s.pc) = .halt b) ∧
  (∀ s t, step s = .next t → t.status = .faulted → ∃ w f, t = raiseFatal s w f) ∧
  ∀ s, s.status ≠ .running → ∃ r, step s = .fault r

/-- R159: the run has no other ending: from every running state a step is taken, and it leaves the run on, halted by
HALT, or faulted with a record. -/
def Obligations.RunHasNoOtherEnding : Prop :=
  ∀ s, s.status = .running → ∃ t, step s = .next t ∧
    (t.status = .running ∨
     (t.status = .halted ∧ s.skip = false ∧ ∃ b, decode (s.readMem s.pc) = .halt b) ∨
     (t.status = .faulted ∧ t.fault ≠ none))

/-- R260: a fatal error ends the run: the status becomes `Faulted`, the record is set, and no later step is taken. -/
def Obligations.FatalErrorEndsRun : Prop :=
  (∀ s w f, (raiseFatal s w f).status = .faulted ∧ (raiseFatal s w f).fault = some ⟨f.code, s.pc, w, f.addr⟩) ∧
  ∀ s t, step s = .next t → t.status = .faulted →
    ∃ r, t.fault = some r ∧ r.instPc = s.pc ∧ step t = .fault (.runFaulted (some r))

/-- Every step keeps the invariant of the machine, from every state that meets it, and the capacity. -/
def Obligations.StepKeepsInvariant : Prop :=
  ∀ s t, s.Inv → step s = .next t → t.Inv ∧ t.memWords = s.memWords

/-- The invariant holds at reset, for every legal capacity and every initial memory. -/
def Obligations.ResetMeetsInvariant : Prop :=
  State.reset.Inv ∧ ∀ memWords initMem, legalMemWords memWords = true → (State.powerOn memWords initMem).Inv

/-- Every fault record names the instruction that was being processed and a cause that its code allows
(60_exceptions.md section 1; the codes and the record are decision D13): codes 2 and 3 an address at or beyond the
capacity, so none of the three range codes when `MEM_WORDS` is 65536; codes 4 and 5 a word that raises them; never
code 6. -/
def Obligations.FaultRecordNamesCause : Prop :=
  ∀ s t r, s.status = .running → step s = .next t → t.status = .faulted → t.fault = some r →
    r.instPc = s.pc ∧ r.wf s.memWords ∧
    (r.code ≠ .fetchOutOfRange → r.instWord = some (s.readMem s.pc)) ∧
    (s.memWords = 65536 → r.code = .writeToLiteral ∨ r.code = .undefinedNonBasic)

/-- R265, code 4: raised exactly when a basic instruction with opcode 0x1 to 0xb and a literal-class operand A is
executed, before any operand is resolved; not for a skipped one, nor for IFE, IFN, IFG, IFB. -/
def Obligations.WriteToLiteralRaisedExactly : Prop :=
  ∀ s, s.status = .running → s.pc.toNat < s.memWords →
    let w := s.readMem s.pc
    let cause := s.skip = false ∧ 0x1 ≤ (opField w).toNat ∧ (opField w).toNat ≤ 0xb ∧ 0x1f ≤ (aField w).toNat
    (cause → EndsFaulted (step s) ⟨.writeToLiteral, s.pc, some w, none⟩) ∧
    ∀ t r, step s = .next t → t.status = .faulted → t.fault = some r → r.code = .writeToLiteral → cause

/-- Code 5 (60_exceptions.md, R266): raised exactly when an undefined non-basic word is decoded, executed or skipped
(the skip path is decision D10). -/
def Obligations.UndefinedNonBasicRaisedExactly : Prop :=
  ∀ s, s.status = .running → s.pc.toNat < s.memWords →
    let w := s.readMem s.pc
    let cause := opField w = 0 ∧ 2 ≤ (aField w).toNat
    (cause → EndsFaulted (step s) ⟨.undefinedNonBasic, s.pc, some w, none⟩) ∧
    ∀ t r, step s = .next t → t.status = .faulted → t.fault = some r → r.code = .undefinedNonBasic → cause

/-! ## Runs of two and three steps -/

/-- Every store, by SET, ADD to XOR, or JSR, is seen by every fetch that comes next (20_memory.md section 4; decision
D21): the cell reads as the word stored; where it is the next instruction's first word, the next step executes that
word; where an operand of the next instruction finds its extra word there, the operand is the stored word's. `u` is
the state in which such an operand is resolved, with PC at its extra word. -/
def Obligations.StoreSeenByNextFetch : Prop :=
  ∀ i s t addr v, Memory.wf s.mem = true → s.status = .running → s.skip = false → s.pc.toNat < s.memWords →
    i.wellFormed = true → s.readMem s.pc = encodeWord i → storedWord i s = some (addr, v) →
    step s = .next t → t.status ≠ .faulted →
    t.readMem addr = v ∧ addr.toNat < t.memWords ∧ (addr = t.pc → step t = exec (decode v) t) ∧
    ∀ u, (u = t.advance ∨ ∃ c, u = afterOperand c t.advance) → addr = u.pc →
      resolve .nextLit u = .ok (.lit v, u.advance) ∧
      (v.toNat < u.memWords → resolve .indNext u = .ok (.mem v, u.advance)) ∧
      ∀ r, (v + u.reg r).toNat < u.memWords → resolve (.indexed r) u = .ok (.mem (v + u.reg r), u.advance)

/-- A false conditional skips exactly one instruction, whatever its length, and the one after it is executed: `skip` is
clear at its address (43_conditional.md section 1; 40_execution_cycle.md sections 2 and 5). That the skipped instruction,
a pop, a push or a JSR among them, leaves SP, the registers and memory alone is decisions D9 and D10 (log entry 10). -/
def Obligations.FalseConditionalSkipsOne : Prop :=
  ∀ a b i n s t u, s.status = .running → s.skip = false → s.pc.toNat < s.memWords →
    decode (s.readMem s.pc) ∈ conditionals a b →
    step s = .next t → t.status = .running → t.skip = true →
    t.pc.toNat < t.memWords → i.wellFormed = true → t.readMem t.pc = encodeWord i → i.length = some n →
    step t = .next u → u.status = .running →
    u.skip = false ∧ u.pc = s.pc + BitVec.ofNat 16 (1 + a.extraWords + b.extraWords + n) ∧
    u.regs = s.regs ∧ u.o = s.o ∧ u.mem = s.mem ∧ u.sp = spAfterOperand b (spAfterOperand a s.sp)

/-- The return idiom: a `SET PC, POP` reached with the stack as JSR left it continues at the word after the JSR, with
SP and every cell but the pushed one as operand B left them (44_nonbasic.md; 41_move_arith.md section 2). -/
def Obligations.CallReturnsToNextInstruction : Prop :=
  ∀ b s t, Memory.wf s.mem = true → s.status = .running → s.skip = false → s.pc.toNat < s.memWords →
    s.readMem s.pc = encodeWord (.jsr b) → step s = .next t → t.status = .running →
    t.pc.toNat < t.memWords → t.readMem t.pc = encodeWord (.set .pc .pop) →
    ∃ u, step t = .next u ∧ u.status = .running ∧ u.pc = s.pc + BitVec.ofNat 16 (1 + b.extraWords) ∧
      u.sp = spAfterOperand b s.sp ∧ u.regs = s.regs ∧ u.o = s.o ∧
      ∀ addr, addr ≠ t.sp → u.readMem addr = s.readMem addr

/-! ## The whole step -/

/-- From every running state the step agrees with the pseudocode summary that closes 40_execution_cycle.md, read on the
raw fields of the instruction word. The summary says nothing of a halted or faulted state ("only when status =
Running"); there both readings answer the host's outcome `fault`, which is the model's choice (log entry 6). -/
def Obligations.StepMatchesPseudocode : Prop :=
  ∀ s, step s = Sys2Proof.Reference.step s

/-- R112: a literal 0 to 31 is an inline literal with no extra word; any other costs one extra word, `N mod 65536`; in
either operand position, illegal as the destination of an opcode that writes it. -/
def Obligations.LiteralsAssembleAsStated : Prop :=
  (∀ n : Int, 0 ≤ n → n ≤ 31 →
    ∃ k : BitVec 5, (Asm.Operand.literal n).encode = (.lit k, []) ∧ (k.toNat : Int) = n ∧
      ((OperandClass.lit k).code.toNat : Int) = 0x20 + n) ∧
  (∀ n : Int, n < 0 ∨ 31 < n →
    ∃ w : Word, (Asm.Operand.literal n).encode = (.nextLit, [w]) ∧ (w.toNat : Int) = n % 65536) ∧
  (∀ (m : Asm.Mnemonic) (x : Asm.Operand) (n : Int),
    Asm.Line.words (.basic m x (.literal n)) =
      encodeWord (m.instr x.encode.1 (Asm.Operand.literal n).encode.1) ::
        (x.encode.2 ++ (Asm.Operand.literal n).encode.2) ∧
    Asm.Line.words (.basic m (.literal n) x) =
      encodeWord (m.instr (Asm.Operand.literal n).encode.1 x.encode.1) ::
        ((Asm.Operand.literal n).encode.2 ++ x.encode.2)) ∧
  ∀ (m : Asm.Mnemonic) (c : OperandClass) (n : Int), m ∉ [.ife, .ifn, .ifg, .ifb] →
    (m.instr (Asm.Operand.literal n).encode.1 c).kind = .literalDestination
end

