-- ==== Sys2Proof/Laws/Decode.lean ====
section
/-! SUPPORT. The fields of the instruction word and the codes of the operand classes: encoding and decoding them are
inverse. -/

namespace Sys2Proof

/-! ## Operand classes -/

@[simp] theorem OperandClass.code_ofCode (c : BitVec 6) : (OperandClass.ofCode c).code = c := by
  revert c; decide

@[simp] theorem OperandClass.ofCode_code (c : OperandClass) : OperandClass.ofCode c.code = c := by
  cases c with
  | reg r | ind r | indexed r => cases r <;> rfl
  | lit n => revert n; decide
  | pop | peek | push | sp | pc | o | indNext | nextLit => rfl

/-- An operand class consumes at most one extra word. -/
theorem OperandClass.extraWords_le_one (c : OperandClass) : c.extraWords ≤ 1 := by
  cases c <;> simp [OperandClass.extraWords]

/-! ## The instruction word -/

theorem opField_toNat (w : Word) : (opField w).toNat = w.toNat % 16 := by
  simp [opField]

theorem aField_toNat (w : Word) : (aField w).toNat = w.toNat / 16 % 64 := by
  simp [aField, Nat.shiftRight_eq_div_pow]

theorem bField_toNat (w : Word) : (bField w).toNat = w.toNat / 1024 := by
  have := w.isLt
  simp only [bField, BitVec.extractLsb'_toNat, Nat.shiftRight_eq_div_pow]
  omega

@[simp] theorem opField_joinFields (op : BitVec 4) (a b : BitVec 6) : opField (joinFields op a b) = op := by
  apply BitVec.eq_of_getLsbD_eq
  intro i hi
  have h1 : i < 16 := by omega
  have h2 : i < 10 := by omega
  simp [opField, joinFields, hi, h1, h2]

@[simp] theorem aField_joinFields (op : BitVec 4) (a b : BitVec 6) : aField (joinFields op a b) = a := by
  apply BitVec.eq_of_getLsbD_eq
  intro i hi
  have h1 : 4 + i < 16 := by omega
  have h2 : 4 + i < 10 := by omega
  simp [aField, joinFields, hi, h1, h2]

@[simp] theorem bField_joinFields (op : BitVec 4) (a b : BitVec 6) : bField (joinFields op a b) = b := by
  apply BitVec.eq_of_getLsbD_eq
  intro i hi
  have h1 : 10 + i < 16 := by omega
  have h2 : ¬ 10 + i < 10 := by omega
  have h3 : 10 + i - 4 = i + 6 := by omega
  have h4 : op.getLsbD (10 + i) = false := BitVec.getLsbD_of_ge op _ (by omega)
  simp [bField, joinFields, hi, h1, h2, h3, h4]

/-- What the fields of a word say of the instruction it decodes to (30_encoding.md R92, R103). -/
theorem decode_form (w : Word) : (decode w).form =
    if opField w = 0#4 then
      if aField w = 0x00#6 ∨ aField w = 0x01#6 then .nonBasic (aField w) (.ofCode (bField w))
      else .undefined (aField w) (bField w)
    else .basic (opField w) (.ofCode (aField w)) (.ofCode (bField w)) := by
  have hop : opField w = BitVec.ofNat 4 (opField w).toNat := by simp
  simp only [decode]
  split
  case h_16 =>
    -- No basic opcode is left, so the field is 0, and the non-basic opcode decides.
    have hzero : opField w = 0#4 := by
      have hlt := (opField w).isLt
      apply BitVec.eq_of_toNat_eq
      show (opField w).toNat = 0
      simp only [imp_false] at *
      omega
    unfold decodeNonBasic
    by_cases h0 : aField w = 0x00#6
    · simp [hzero, h0, Instr.form]
    · by_cases h1 : aField w = 0x01#6 <;> simp [hzero, h0, h1, Instr.form]
  all_goals
    rename_i h
    rw [h] at hop
    rw [hop]
    rfl

end Sys2Proof
end

