-- ==== Sys2Proof/Laws/State.lean ====
section
/-! SUPPORT. One lemma per field of `State` per update, so that no proof unfolds a record update; then what each update
does to a register read, a memory read, PC's word and a target's read. -/

namespace Sys2Proof.Machine

variable (s : State)

/-! ## setReg -/

@[simp] theorem State.setReg_regs (r : Reg) (v : Word) : (s.setReg r v).regs = s.regs.set r v := rfl
@[simp] theorem State.setReg_sp (r : Reg) (v : Word) : (s.setReg r v).sp = s.sp := rfl
@[simp] theorem State.setReg_pc (r : Reg) (v : Word) : (s.setReg r v).pc = s.pc := rfl
@[simp] theorem State.setReg_o (r : Reg) (v : Word) : (s.setReg r v).o = s.o := rfl
@[simp] theorem State.setReg_skip (r : Reg) (v : Word) : (s.setReg r v).skip = s.skip := rfl
@[simp] theorem State.setReg_status (r : Reg) (v : Word) : (s.setReg r v).status = s.status := rfl
@[simp] theorem State.setReg_fault (r : Reg) (v : Word) : (s.setReg r v).fault = s.fault := rfl
@[simp] theorem State.setReg_mem (r : Reg) (v : Word) : (s.setReg r v).mem = s.mem := rfl
@[simp] theorem State.setReg_memWords (r : Reg) (v : Word) : (s.setReg r v).memWords = s.memWords := rfl
@[simp] theorem State.setReg_draws (r : Reg) (v : Word) : (s.setReg r v).draws = s.draws := rfl
@[simp] theorem State.setReg_readMem (r : Reg) (v : Word) (addr : Word) : (s.setReg r v).readMem addr = s.readMem addr := rfl

/-! ## setSp -/

@[simp] theorem State.setSp_regs (v : Word) : (s.setSp v).regs = s.regs := rfl
@[simp] theorem State.setSp_sp (v : Word) : (s.setSp v).sp = v := rfl
@[simp] theorem State.setSp_pc (v : Word) : (s.setSp v).pc = s.pc := rfl
@[simp] theorem State.setSp_o (v : Word) : (s.setSp v).o = s.o := rfl
@[simp] theorem State.setSp_skip (v : Word) : (s.setSp v).skip = s.skip := rfl
@[simp] theorem State.setSp_status (v : Word) : (s.setSp v).status = s.status := rfl
@[simp] theorem State.setSp_fault (v : Word) : (s.setSp v).fault = s.fault := rfl
@[simp] theorem State.setSp_mem (v : Word) : (s.setSp v).mem = s.mem := rfl
@[simp] theorem State.setSp_memWords (v : Word) : (s.setSp v).memWords = s.memWords := rfl
@[simp] theorem State.setSp_draws (v : Word) : (s.setSp v).draws = s.draws := rfl
@[simp] theorem State.setSp_reg (v : Word) (q : Reg) : (s.setSp v).reg q = s.reg q := rfl
@[simp] theorem State.setSp_readMem (v : Word) (addr : Word) : (s.setSp v).readMem addr = s.readMem addr := rfl

/-! ## setPc -/

@[simp] theorem State.setPc_regs (v : Word) : (s.setPc v).regs = s.regs := rfl
@[simp] theorem State.setPc_sp (v : Word) : (s.setPc v).sp = s.sp := rfl
@[simp] theorem State.setPc_pc (v : Word) : (s.setPc v).pc = v := rfl
@[simp] theorem State.setPc_o (v : Word) : (s.setPc v).o = s.o := rfl
@[simp] theorem State.setPc_skip (v : Word) : (s.setPc v).skip = s.skip := rfl
@[simp] theorem State.setPc_status (v : Word) : (s.setPc v).status = s.status := rfl
@[simp] theorem State.setPc_fault (v : Word) : (s.setPc v).fault = s.fault := rfl
@[simp] theorem State.setPc_mem (v : Word) : (s.setPc v).mem = s.mem := rfl
@[simp] theorem State.setPc_memWords (v : Word) : (s.setPc v).memWords = s.memWords := rfl
@[simp] theorem State.setPc_draws (v : Word) : (s.setPc v).draws = s.draws := rfl
@[simp] theorem State.setPc_reg (v : Word) (q : Reg) : (s.setPc v).reg q = s.reg q := rfl
@[simp] theorem State.setPc_readMem (v : Word) (addr : Word) : (s.setPc v).readMem addr = s.readMem addr := rfl

/-! ## setO -/

@[simp] theorem State.setO_regs (v : Word) : (s.setO v).regs = s.regs := rfl
@[simp] theorem State.setO_sp (v : Word) : (s.setO v).sp = s.sp := rfl
@[simp] theorem State.setO_pc (v : Word) : (s.setO v).pc = s.pc := rfl
@[simp] theorem State.setO_o (v : Word) : (s.setO v).o = v := rfl
@[simp] theorem State.setO_skip (v : Word) : (s.setO v).skip = s.skip := rfl
@[simp] theorem State.setO_status (v : Word) : (s.setO v).status = s.status := rfl
@[simp] theorem State.setO_fault (v : Word) : (s.setO v).fault = s.fault := rfl
@[simp] theorem State.setO_mem (v : Word) : (s.setO v).mem = s.mem := rfl
@[simp] theorem State.setO_memWords (v : Word) : (s.setO v).memWords = s.memWords := rfl
@[simp] theorem State.setO_draws (v : Word) : (s.setO v).draws = s.draws := rfl
@[simp] theorem State.setO_reg (v : Word) (q : Reg) : (s.setO v).reg q = s.reg q := rfl
@[simp] theorem State.setO_readMem (v : Word) (addr : Word) : (s.setO v).readMem addr = s.readMem addr := rfl

/-! ## setSkip -/

@[simp] theorem State.setSkip_regs (v : Bool) : (s.setSkip v).regs = s.regs := rfl
@[simp] theorem State.setSkip_sp (v : Bool) : (s.setSkip v).sp = s.sp := rfl
@[simp] theorem State.setSkip_pc (v : Bool) : (s.setSkip v).pc = s.pc := rfl
@[simp] theorem State.setSkip_o (v : Bool) : (s.setSkip v).o = s.o := rfl
@[simp] theorem State.setSkip_skip (v : Bool) : (s.setSkip v).skip = v := rfl
@[simp] theorem State.setSkip_status (v : Bool) : (s.setSkip v).status = s.status := rfl
@[simp] theorem State.setSkip_fault (v : Bool) : (s.setSkip v).fault = s.fault := rfl
@[simp] theorem State.setSkip_mem (v : Bool) : (s.setSkip v).mem = s.mem := rfl
@[simp] theorem State.setSkip_memWords (v : Bool) : (s.setSkip v).memWords = s.memWords := rfl
@[simp] theorem State.setSkip_draws (v : Bool) : (s.setSkip v).draws = s.draws := rfl
@[simp] theorem State.setSkip_reg (v : Bool) (q : Reg) : (s.setSkip v).reg q = s.reg q := rfl
@[simp] theorem State.setSkip_readMem (v : Bool) (addr : Word) : (s.setSkip v).readMem addr = s.readMem addr := rfl

/-! ## setStatus -/

@[simp] theorem State.setStatus_regs (v : Status) : (s.setStatus v).regs = s.regs := rfl
@[simp] theorem State.setStatus_sp (v : Status) : (s.setStatus v).sp = s.sp := rfl
@[simp] theorem State.setStatus_pc (v : Status) : (s.setStatus v).pc = s.pc := rfl
@[simp] theorem State.setStatus_o (v : Status) : (s.setStatus v).o = s.o := rfl
@[simp] theorem State.setStatus_skip (v : Status) : (s.setStatus v).skip = s.skip := rfl
@[simp] theorem State.setStatus_status (v : Status) : (s.setStatus v).status = v := rfl
@[simp] theorem State.setStatus_fault (v : Status) : (s.setStatus v).fault = s.fault := rfl
@[simp] theorem State.setStatus_mem (v : Status) : (s.setStatus v).mem = s.mem := rfl
@[simp] theorem State.setStatus_memWords (v : Status) : (s.setStatus v).memWords = s.memWords := rfl
@[simp] theorem State.setStatus_draws (v : Status) : (s.setStatus v).draws = s.draws := rfl
@[simp] theorem State.setStatus_reg (v : Status) (q : Reg) : (s.setStatus v).reg q = s.reg q := rfl
@[simp] theorem State.setStatus_readMem (v : Status) (addr : Word) : (s.setStatus v).readMem addr = s.readMem addr := rfl

/-! ## writeMem -/

@[simp] theorem State.writeMem_regs (addr v : Word) : (s.writeMem addr v).regs = s.regs := rfl
@[simp] theorem State.writeMem_sp (addr v : Word) : (s.writeMem addr v).sp = s.sp := rfl
@[simp] theorem State.writeMem_pc (addr v : Word) : (s.writeMem addr v).pc = s.pc := rfl
@[simp] theorem State.writeMem_o (addr v : Word) : (s.writeMem addr v).o = s.o := rfl
@[simp] theorem State.writeMem_skip (addr v : Word) : (s.writeMem addr v).skip = s.skip := rfl
@[simp] theorem State.writeMem_status (addr v : Word) : (s.writeMem addr v).status = s.status := rfl
@[simp] theorem State.writeMem_fault (addr v : Word) : (s.writeMem addr v).fault = s.fault := rfl
@[simp] theorem State.writeMem_mem (addr v : Word) : (s.writeMem addr v).mem = Memory.set s.mem addr.toNat v := rfl
@[simp] theorem State.writeMem_memWords (addr v : Word) : (s.writeMem addr v).memWords = s.memWords := rfl
@[simp] theorem State.writeMem_draws (addr v : Word) : (s.writeMem addr v).draws = s.draws := rfl
@[simp] theorem State.writeMem_reg (addr v : Word) (q : Reg) : (s.writeMem addr v).reg q = s.reg q := rfl

/-! ## advance -/

@[simp] theorem State.advance_regs : s.advance.regs = s.regs := rfl
@[simp] theorem State.advance_sp : s.advance.sp = s.sp := rfl
@[simp] theorem State.advance_pc : s.advance.pc = s.pc + 1 := rfl
@[simp] theorem State.advance_o : s.advance.o = s.o := rfl
@[simp] theorem State.advance_skip : s.advance.skip = s.skip := rfl
@[simp] theorem State.advance_status : s.advance.status = s.status := rfl
@[simp] theorem State.advance_fault : s.advance.fault = s.fault := rfl
@[simp] theorem State.advance_mem : s.advance.mem = s.mem := rfl
@[simp] theorem State.advance_memWords : s.advance.memWords = s.memWords := rfl
@[simp] theorem State.advance_draws : s.advance.draws = s.draws := rfl
@[simp] theorem State.advance_reg (q : Reg) : s.advance.reg q = s.reg q := rfl
@[simp] theorem State.advance_readMem (addr : Word) : s.advance.readMem addr = s.readMem addr := rfl

/-! ## The fatal error -/

variable (w : Option Word) (f : FatalError)

@[simp] theorem raiseFatal_status : (raiseFatal s w f).status = .faulted := rfl
@[simp] theorem raiseFatal_fault : (raiseFatal s w f).fault = some ⟨f.code, s.pc, w, f.addr⟩ := rfl
@[simp] theorem raiseFatal_memWords : (raiseFatal s w f).memWords = s.memWords := rfl
@[simp] theorem raiseFatal_draws : (raiseFatal s w f).draws = s.draws + 1 := rfl
theorem raiseFatal_mem : (raiseFatal s w f).mem = Memory.ofCells s.memWords (Config.freeCells s.draws) := rfl

/-! ## Reset -/

variable (memWords : Nat) (mem : Memory)

@[simp] theorem State.resetWith_sp : (State.resetWith memWords mem).sp = BitVec.ofNat 16 memWords := rfl
@[simp] theorem State.resetWith_pc : (State.resetWith memWords mem).pc = 0 := rfl
@[simp] theorem State.resetWith_o : (State.resetWith memWords mem).o = 0 := rfl
@[simp] theorem State.resetWith_skip : (State.resetWith memWords mem).skip = false := rfl
@[simp] theorem State.resetWith_status : (State.resetWith memWords mem).status = .running := rfl
@[simp] theorem State.resetWith_fault : (State.resetWith memWords mem).fault = none := rfl
@[simp] theorem State.resetWith_mem : (State.resetWith memWords mem).mem = mem := rfl
@[simp] theorem State.resetWith_memWords : (State.resetWith memWords mem).memWords = memWords := rfl

/-- `State.reset` is the general power-on at the reference capacity with no initial cell listed. -/
theorem State.reset_eq_powerOn : State.reset = State.powerOn Config.referenceMemWords [] := rfl

/-! ## General registers -/

theorem Regs.get_set (r : Regs) (n q : Reg) (v : Word) : (r.set n v).get q = if n = q then v else r.get q := by
  cases n <;> cases q <;> rfl

theorem State.setReg_reg (r q : Reg) (v : Word) : (s.setReg r v).reg q = if r = q then v else s.reg q :=
  Regs.get_set s.regs r q v

@[simp] theorem State.setReg_reg_same (r : Reg) (v : Word) : (s.setReg r v).reg r = v := by
  simp [State.setReg_reg]

/-! ## Targets -/

theorem Target.write_memWords (t : Target) (v : Word) : (t.write v s).memWords = s.memWords := by cases t <;> rfl
theorem Target.write_status (t : Target) (v : Word) : (t.write v s).status = s.status := by cases t <;> rfl
theorem Target.write_fault (t : Target) (v : Word) : (t.write v s).fault = s.fault := by cases t <;> rfl
theorem Target.write_skip (t : Target) (v : Word) : (t.write v s).skip = s.skip := by cases t <;> rfl
theorem Target.write_draws (t : Target) (v : Word) : (t.write v s).draws = s.draws := by cases t <;> rfl

/-- A write to a target that is not SP leaves SP; likewise PC, O and memory below. -/
theorem Target.write_sp {t : Target} (h : t ≠ .sp) (v : Word) : (t.write v s).sp = s.sp := by
  cases t <;> first | rfl | exact absurd rfl h

theorem Target.write_pc {t : Target} (h : t ≠ .pc) (v : Word) : (t.write v s).pc = s.pc := by
  cases t <;> first | rfl | exact absurd rfl h

theorem Target.write_o {t : Target} (h : t ≠ .o) (v : Word) : (t.write v s).o = s.o := by
  cases t <;> first | rfl | exact absurd rfl h

theorem Target.write_reg {t : Target} {r : Reg} (h : t ≠ .reg r) (v : Word) : (t.write v s).reg r = s.reg r := by
  cases t with
  | reg q => simp only [Target.write, State.setReg_reg, if_neg (fun e => h (congrArg Target.reg e))]
  | sp | pc | o | mem _ | lit _ => rfl

/-! ## Operands' side effects -/

variable (c : OperandClass)

@[simp] theorem afterOperand_regs : (afterOperand c s).regs = s.regs := by cases c <;> rfl
@[simp] theorem afterOperand_reg (r : Reg) : (afterOperand c s).reg r = s.reg r := by cases c <;> rfl
@[simp] theorem afterOperand_o : (afterOperand c s).o = s.o := by cases c <;> rfl
@[simp] theorem afterOperand_skip : (afterOperand c s).skip = s.skip := by cases c <;> rfl
@[simp] theorem afterOperand_status : (afterOperand c s).status = s.status := by cases c <;> rfl
@[simp] theorem afterOperand_fault : (afterOperand c s).fault = s.fault := by cases c <;> rfl
@[simp] theorem afterOperand_mem : (afterOperand c s).mem = s.mem := by cases c <;> rfl
@[simp] theorem afterOperand_readMem (addr : Word) : (afterOperand c s).readMem addr = s.readMem addr := by
  cases c <;> rfl
@[simp] theorem afterOperand_memWords : (afterOperand c s).memWords = s.memWords := by cases c <;> rfl
@[simp] theorem afterOperand_draws : (afterOperand c s).draws = s.draws := by cases c <;> rfl
@[simp] theorem afterOperand_sp : (afterOperand c s).sp = spAfterOperand c s.sp := by cases c <;> rfl
theorem afterOperand_pc : (afterOperand c s).pc = s.pc + BitVec.ofNat 16 c.extraWords := by
  cases c <;> simp [afterOperand, OperandClass.extraWords]

end Sys2Proof.Machine
end

