-- ==== Sys2Proof/Laws/Memory.lean ====
section
/-! SUPPORT. The laws of memory: what a read after a write gives, that every operation keeps the canonical form, and
that equal memories are equal lists. -/

namespace Sys2Proof.Machine

/-! ## The canonical form -/

theorem Memory.wfFrom_mono {low low' : Nat} {m : Memory} (h : low' ≤ low) (hm : Memory.wfFrom low m = true) :
    Memory.wfFrom low' m = true := by
  cases m with
  | nil => rfl
  | cons c m =>
    obtain ⟨k, v⟩ := c
    simp only [Memory.wfFrom, Bool.and_eq_true, decide_eq_true_eq] at hm ⊢
    exact ⟨⟨by omega, hm.1.2⟩, hm.2⟩

/-- Below the first address of a canonical list nothing is listed. -/
theorem Memory.get_of_lt {low addr : Nat} {m : Memory} (hm : Memory.wfFrom low m = true) (h : addr < low) :
    Memory.get m addr = Memory.unlisted := by
  induction m generalizing low with
  | nil => rfl
  | cons c m ih =>
    obtain ⟨k, v⟩ := c
    simp only [Memory.wfFrom, Bool.and_eq_true, decide_eq_true_eq] at hm
    have hk : k ≠ addr := by omega
    simp only [Memory.get, if_neg hk]
    exact ih hm.2 (by omega)

/-! ## Read after write -/

theorem Memory.get_set_other (m : Memory) {addr other : Nat} (h : addr ≠ other) (v : Word) :
    Memory.get (Memory.set m addr v) other = Memory.get m other := by
  induction m with
  | nil => unfold Memory.set; split <;> simp [Memory.get, h]
  | cons c m ih =>
    obtain ⟨k, w⟩ := c
    unfold Memory.set
    split
    · split <;> simp [Memory.get, h]
    · split
      · rename_i hk
        subst hk
        split <;> simp [Memory.get, h]
      · simp only [Memory.get, ih]

theorem Memory.get_set_same {low : Nat} {m : Memory} (hm : Memory.wfFrom low m = true) (addr : Nat) (v : Word) :
    Memory.get (Memory.set m addr v) addr = v := by
  induction m generalizing low with
  | nil => unfold Memory.set; split <;> simp_all [Memory.get]
  | cons c m ih =>
    obtain ⟨k, w⟩ := c
    have hc := hm
    simp only [Memory.wfFrom, Bool.and_eq_true, decide_eq_true_eq] at hm
    unfold Memory.set
    split
    · rename_i hlt
      split
      · rename_i hv
        have : Memory.wfFrom k ((k, w) :: m) = true := by
          simp only [Memory.wfFrom, Bool.and_eq_true, decide_eq_true_eq]
          exact ⟨⟨Nat.le_refl k, hm.1.2⟩, hm.2⟩
        rw [Memory.get_of_lt this hlt, hv]
      · simp [Memory.get]
    · split
      · rename_i hk
        subst hk
        split
        · rename_i hv
          rw [Memory.get_of_lt hm.2 (by omega), hv]
        · simp [Memory.get]
      · rename_i hk
        simp only [Memory.get, if_neg (Ne.symm hk)]
        exact ih hm.2

/-- Writing back what is there changes nothing. -/
theorem Memory.set_get_same {low : Nat} {m : Memory} (hm : Memory.wfFrom low m = true) (addr : Nat) :
    Memory.set m addr (Memory.get m addr) = m := by
  induction m generalizing low with
  | nil => simp [Memory.set, Memory.get]
  | cons c m ih =>
    obtain ⟨k, w⟩ := c
    simp only [Memory.wfFrom, Bool.and_eq_true, decide_eq_true_eq] at hm
    unfold Memory.set
    by_cases hlt : addr < k
    · have hk : k ≠ addr := by omega
      have : Memory.get m addr = Memory.unlisted := Memory.get_of_lt hm.2 (by omega)
      simp [Memory.get, hlt, hk, this]
    · by_cases hk : addr = k
      · subst hk
        have : w ≠ Memory.unlisted := by simpa using hm.1.2
        simp [Memory.get, this]
      · simp [Memory.get, hlt, hk, Ne.symm hk, ih hm.2]

/-! ## Every operation keeps the canonical form -/

theorem Memory.wfFrom_set {low : Nat} {m : Memory} (hm : Memory.wfFrom low m = true) {addr : Nat} (h : low ≤ addr)
    (v : Word) : Memory.wfFrom low (Memory.set m addr v) = true := by
  induction m generalizing low with
  | nil => unfold Memory.set; split <;> simp_all [Memory.wfFrom]
  | cons c m ih =>
    obtain ⟨k, w⟩ := c
    have hc := hm
    simp only [Memory.wfFrom, Bool.and_eq_true, decide_eq_true_eq] at hm
    unfold Memory.set
    split
    · rename_i hlt
      split
      · exact hc
      · rename_i hv
        simp only [Memory.wfFrom, Bool.and_eq_true, decide_eq_true_eq]
        exact ⟨⟨h, hv⟩, ⟨⟨by omega, hm.1.2⟩, hm.2⟩⟩
    · split
      · rename_i hk
        subst hk
        split
        · exact Memory.wfFrom_mono (by omega) hm.2
        · rename_i hv
          simp only [Memory.wfFrom, Bool.and_eq_true, decide_eq_true_eq]
          exact ⟨⟨hm.1.1, hv⟩, hm.2⟩
      · simp only [Memory.wfFrom, Bool.and_eq_true, decide_eq_true_eq]
        exact ⟨hm.1, ih hm.2 (by omega)⟩

theorem Memory.wf_set {m : Memory} (hm : Memory.wf m = true) (addr : Nat) (v : Word) :
    Memory.wf (Memory.set m addr v) = true :=
  Memory.wfFrom_set hm (Nat.zero_le addr) v

theorem Memory.within_set {m : Memory} {memWords addr : Nat} (hm : Memory.within m memWords = true)
    (h : addr < memWords) (v : Word) : Memory.within (Memory.set m addr v) memWords = true := by
  induction m with
  | nil => unfold Memory.set; split <;> simp [Memory.within, h]
  | cons c m ih =>
    obtain ⟨k, w⟩ := c
    have hk : k < memWords := by simp only [Memory.within, List.all_cons, Bool.and_eq_true, decide_eq_true_eq] at hm; exact hm.1
    have hrest : m.all (·.1 < memWords) = true := by
      simp only [Memory.within, List.all_cons, Bool.and_eq_true] at hm; exact hm.2
    have hset : (Memory.set m addr v).all (·.1 < memWords) = true := ih hrest
    unfold Memory.set Memory.within
    split
    · split <;> simp only [List.all_cons, hk, h, hrest, decide_true, Bool.and_self]
    · split
      · split <;> simp only [List.all_cons, hk, hrest, decide_true, Bool.and_self]
      · simp only [List.all_cons, hk, hset, decide_true, Bool.and_self]

theorem Memory.wf_ofCells (memWords : Nat) (cells : List Cell) : Memory.wf (Memory.ofCells memWords cells) = true := by
  induction cells with
  | nil => rfl
  | cons c cells ih =>
    unfold Memory.ofCells
    split
    · exact Memory.wf_set ih _ _
    · exact ih

theorem Memory.within_ofCells (memWords : Nat) (cells : List Cell) :
    Memory.within (Memory.ofCells memWords cells) memWords = true := by
  induction cells with
  | nil => rfl
  | cons c cells ih =>
    unfold Memory.ofCells
    split
    · rename_i h
      exact Memory.within_set ih h _
    · exact ih

/-! ## The state's memory -/

theorem State.readMem_writeMem_other (s : State) {addr other : Word} (h : addr ≠ other) (v : Word) :
    (s.writeMem addr v).readMem other = s.readMem other :=
  Memory.get_set_other s.mem (fun e => h (BitVec.eq_of_toNat_eq e)) v

theorem State.readMem_writeMem_same {s : State} (hm : Memory.wf s.mem = true) (addr v : Word) :
    (s.writeMem addr v).readMem addr = v :=
  Memory.get_set_same hm addr.toNat v

theorem Target.write_readMem (s : State) {t : Target} {addr : Word} (h : t ≠ .mem addr) (v : Word) :
    (t.write v s).readMem addr = s.readMem addr := by
  cases t with
  | mem a => exact State.readMem_writeMem_other s (fun e => h (congrArg Target.mem e)) v
  | reg _ | sp | pc | o | lit _ => rfl

theorem Target.write_mem_wf {s : State} (hm : Memory.wf s.mem = true) (t : Target) (v : Word) :
    Memory.wf (t.write v s).mem = true := by
  cases t with
  | mem a => exact Memory.wf_set hm _ _
  | reg _ | sp | pc | o | lit _ => exact hm

theorem Target.write_mem_within {s : State} (hm : Memory.within s.mem s.memWords = true) {t : Target}
    (ht : t.inRange s.memWords = true) (v : Word) : Memory.within (t.write v s).mem s.memWords = true := by
  cases t with
  | mem a => exact Memory.within_set hm (of_decide_eq_true ht) _
  | reg _ | sp | pc | o | lit _ => exact hm

end Sys2Proof.Machine
end

