-- ==== Sys2Proof/Laws/Operands.lean ====
section
/-! SUPPORT. Operand resolution said once: it answers exactly the columns of the table (`operandTarget`,
`afterOperand`) when the operand lies in memory, and its first fatal error when it does not. -/

namespace Sys2Proof.Machine

/-! ## One operand -/

theorem operandFault_eq_none_iff (c : OperandClass) (s : State) : operandFault c s = none ↔ OperandInRange c s := by
  unfold operandFault OperandInRange
  split
  · rename_i h
    simp only [reduceCtorEq, false_iff, not_and]
    intro hx
    exact absurd (hx h.1) (by omega)
  · rename_i h
    have hx : c.extraWords = 1 → s.pc.toNat < s.memWords := fun e => by
      by_cases hp : s.memWords ≤ s.pc.toNat
      · exact absurd ⟨e, hp⟩ h
      · omega
    cases operandTarget c s with
    | mem addr =>
      simp only [Target.inRange, decide_eq_true_eq]
      constructor
      · intro hn
        refine ⟨hx, ?_⟩
        by_cases ha : s.memWords ≤ addr.toNat
        · simp [ha] at hn
        · omega
      · intro hn
        simp [Nat.not_le.mpr hn.2]
    | reg _ | sp | pc | o | lit _ => simpa [Target.inRange] using hx

theorem resolve_eq (c : OperandClass) (s : State) :
    resolve c s =
      match operandFault c s with
      | some f => .error f
      | none => .ok (operandTarget c s, afterOperand c s) := by
  unfold resolve operandFault checkTarget checkAddr checkExtra
  by_cases hx : c.extraWords = 1 <;> by_cases hp : s.memWords ≤ s.pc.toNat
  · simp [hx, hp, Nat.not_lt.mpr hp, bind, Except.bind]
  · have hp' : s.pc.toNat < s.memWords := by omega
    cases operandTarget c s with
    | mem addr =>
      by_cases ha : s.memWords ≤ addr.toNat
      · simp [hx, hp, hp', ha, Nat.not_lt.mpr ha, bind, Except.bind]
      · simp [hx, hp, hp', ha, Nat.lt_of_not_le ha, bind, Except.bind, pure, Except.pure]
    | reg _ | sp | pc | o | lit _ => simp [hx, hp, hp', bind, Except.bind, pure, Except.pure]
  all_goals
    cases operandTarget c s with
    | mem addr =>
      by_cases ha : s.memWords ≤ addr.toNat
      · simp [hx, ha, Nat.not_lt.mpr ha, bind, Except.bind]
      · simp [hx, ha, Nat.lt_of_not_le ha, bind, Except.bind, pure, Except.pure]
    | reg _ | sp | pc | o | lit _ => simp [hx, bind, Except.bind, pure, Except.pure]

theorem resolve_of_inRange {c : OperandClass} {s : State} (h : OperandInRange c s) :
    resolve c s = .ok (operandTarget c s, afterOperand c s) := by
  rw [resolve_eq, (operandFault_eq_none_iff c s).mpr h]

theorem resolve_of_fault {c : OperandClass} {s : State} {f : FatalError} (h : operandFault c s = some f) :
    resolve c s = .error f := by
  rw [resolve_eq, h]

/-- What a fatal error of an operand says: code 2 or 3, and an address at or beyond the capacity. -/
theorem operandFault_out_of_range {c : OperandClass} {s : State} {f : FatalError} (h : operandFault c s = some f) :
    (f.code = .extraWordOutOfRange ∨ f.code = .operandAddressOutOfRange) ∧
      ∃ addr, f.addr = some addr ∧ s.memWords ≤ addr.toNat := by
  unfold operandFault at h
  split at h
  · rename_i hx
    cases h
    exact ⟨.inl rfl, s.pc, rfl, hx.2⟩
  · split at h
    · split at h
      · rename_i addr _ ha
        cases h
        exact ⟨.inr rfl, addr, rfl, ha⟩
      · cases h
    all_goals cases h

/-! ## Both operands -/

theorem operandsFault_eq_none_iff (a b : OperandClass) (s : State) :
    operandsFault a b s = none ↔ OperandsInRange a b s := by
  unfold operandsFault OperandsInRange
  rw [← operandFault_eq_none_iff, ← operandFault_eq_none_iff]
  cases operandFault a s.advance <;> simp

theorem operandsFault_out_of_range {a b : OperandClass} {s : State} {f : FatalError}
    (h : operandsFault a b s = some f) :
    (f.code = .extraWordOutOfRange ∨ f.code = .operandAddressOutOfRange) ∧
      ∃ addr, f.addr = some addr ∧ s.memWords ≤ addr.toNat := by
  unfold operandsFault at h
  split at h
  · rename_i hf
    cases h
    simpa using operandFault_out_of_range hf
  · simpa using operandFault_out_of_range h

theorem operands_eq (a b : OperandClass) (s : State) :
    operands a b s =
      match operandsFault a b s with
      | some f => .error f
      | none => .ok (resolvedOperands a b s) := by
  unfold operands operandsFault
  rw [resolve_eq]
  cases operandFault a s.advance with
  | some f => rfl
  | none =>
    simp only [bind, Except.bind, resolve_eq]
    cases operandFault b (afterOperand a s.advance) <;> rfl

theorem operandB_eq (b : OperandClass) (s : State) :
    operandB b s =
      match operandFault b s.advance with
      | some f => .error f
      | none => .ok ((operandTarget b s.advance).read (afterOperand b s.advance), afterOperand b s.advance) := by
  unfold operandB
  rw [resolve_eq]
  cases operandFault b s.advance <;> rfl

/-- The target of operand A stays in range: no operand changes the capacity. -/
theorem resolvedOperands_inRange {a b : OperandClass} {s : State} (h : OperandsInRange a b s) :
    (resolvedOperands a b s).tA.inRange (resolvedOperands a b s).st.memWords = true := by
  simpa [resolvedOperands] using h.1.2

section
variable (a b : OperandClass) (s : State)

@[simp] theorem resolvedOperands_tA : (resolvedOperands a b s).tA = operandTarget a s.advance := rfl
@[simp] theorem resolvedOperands_reg (r : Reg) : (resolvedOperands a b s).st.reg r = s.reg r := by
  simp [resolvedOperands]
@[simp] theorem resolvedOperands_sp :
    (resolvedOperands a b s).st.sp = spAfterOperand b (spAfterOperand a s.sp) := by simp [resolvedOperands]
@[simp] theorem resolvedOperands_o : (resolvedOperands a b s).st.o = s.o := by simp [resolvedOperands]
@[simp] theorem resolvedOperands_skip : (resolvedOperands a b s).st.skip = s.skip := by simp [resolvedOperands]
@[simp] theorem resolvedOperands_status : (resolvedOperands a b s).st.status = s.status := by simp [resolvedOperands]
@[simp] theorem resolvedOperands_fault : (resolvedOperands a b s).st.fault = s.fault := by simp [resolvedOperands]
@[simp] theorem resolvedOperands_mem : (resolvedOperands a b s).st.mem = s.mem := by simp [resolvedOperands]
@[simp] theorem resolvedOperands_readMem (addr : Word) :
    (resolvedOperands a b s).st.readMem addr = s.readMem addr := by simp [resolvedOperands]
@[simp] theorem resolvedOperands_memWords : (resolvedOperands a b s).st.memWords = s.memWords := by
  simp [resolvedOperands]
@[simp] theorem resolvedOperands_draws : (resolvedOperands a b s).st.draws = s.draws := by simp [resolvedOperands]
theorem resolvedOperands_pc :
    (resolvedOperands a b s).st.pc = s.pc + 1 + BitVec.ofNat 16 a.extraWords + BitVec.ofNat 16 b.extraWords := by
  simp [resolvedOperands, afterOperand_pc]
end

/-! ## The shared shapes of instructions -/

theorem writing_of_inRange {a b : OperandClass} {s : State} (i : Instr) (effect : Operands → State)
    (hl : a.isLiteral = false) (h : OperandsInRange a b s) :
    writing i a b s effect = .next (effect (resolvedOperands a b s)) := by
  unfold writing checkWritable
  rw [operands_eq, (operandsFault_eq_none_iff a b s).mpr h]
  simp only [hl]
  rfl

theorem writing_of_literal {a : OperandClass} (i : Instr) (b : OperandClass) (s : State) (effect : Operands → State)
    (hl : a.isLiteral = true) :
    writing i a b s effect = .next (raiseFatal s (some (encodeWord i)) ⟨.writeToLiteral, none⟩) := by
  unfold writing checkWritable
  simp only [hl]
  rfl

theorem writing_of_fault {a b : OperandClass} {s : State} {f : FatalError} (i : Instr) (effect : Operands → State)
    (hl : a.isLiteral = false) (h : operandsFault a b s = some f) :
    writing i a b s effect = .next (raiseFatal s (some (encodeWord i)) f) := by
  unfold writing checkWritable
  rw [operands_eq, h]
  simp only [hl]
  rfl

theorem conditional_of_inRange {a b : OperandClass} {s : State} (i : Instr) (cond : Word → Word → Bool)
    (h : OperandsInRange a b s) :
    conditional i a b s cond =
      .next ((resolvedOperands a b s).st.setSkip
        (!cond (resolvedOperands a b s).vA (resolvedOperands a b s).vB)) := by
  unfold conditional
  rw [operands_eq, (operandsFault_eq_none_iff a b s).mpr h]
  rfl

theorem conditional_of_fault {a b : OperandClass} {s : State} {f : FatalError} (i : Instr)
    (cond : Word → Word → Bool) (h : operandsFault a b s = some f) :
    conditional i a b s cond = .next (raiseFatal s (some (encodeWord i)) f) := by
  unfold conditional
  rw [operands_eq, h]
  rfl

end Sys2Proof.Machine
end

