-- ==== Sys2Proof/Laws/Exec.lean ====
section
/-! SUPPORT. Everything an instruction, a skipped instruction and a step can do, said once; later proofs take it case by
case. -/

namespace Sys2Proof.Machine

/-! ## The non-basic instructions -/

theorem execJsr_eq (b : OperandClass) (s : State) :
    execJsr b s =
      match operandFault b s.advance with
      | some f => .next (raiseFatal s (some (encodeWord (.jsr b))) f)
      | none =>
        let sB := afterOperand b s.advance
        if (sB.sp - 1).toNat < s.memWords then
          .next ((((sB.setSp (sB.sp - 1)).writeMem (sB.sp - 1) sB.pc).setPc ((operandTarget b s.advance).read sB)))
        else
          .next (raiseFatal s (some (encodeWord (.jsr b))) ⟨.operandAddressOutOfRange, some (sB.sp - 1)⟩) := by
  unfold execJsr
  rw [operandB_eq]
  cases operandFault b s.advance with
  | some f => rfl
  | none =>
    by_cases h : ((afterOperand b s.advance).sp - 1).toNat < s.memWords
    · simp only [bind, Except.bind, pure, Except.pure, checkAddr, State.setSp_sp, State.setSp_memWords,
        afterOperand_memWords, State.advance_memWords, if_pos h, complete, State.setSp_pc]
    · simp only [bind, Except.bind, checkAddr, State.setSp_sp, State.setSp_memWords,
        afterOperand_memWords, State.advance_memWords, if_neg h, complete]

theorem execHalt_eq (b : OperandClass) (s : State) :
    execHalt b s =
      match operandFault b s.advance with
      | some f => .next (raiseFatal s (some (encodeWord (.halt b))) f)
      | none => .next ((afterOperand b s.advance).setStatus .halted) := by
  unfold execHalt
  rw [operandB_eq]
  cases operandFault b s.advance <;> rfl

/-! ## What an instruction can do -/

/-- Why an executed instruction raises a fatal error. -/
inductive ExecFault (i : Instr) (s : State) (f : FatalError) : Prop where
  | outOfRange (addr : Word) (hc : f.code = .extraWordOutOfRange ∨ f.code = .operandAddressOutOfRange)
      (ha : f.addr = some addr) (hr : s.memWords ≤ addr.toNat)
  | literal (hc : f.code = .writeToLiteral) (ha : f.addr = none) (hk : i.kind = .literalDestination)
  | undefined (hc : f.code = .undefinedNonBasic) (ha : f.addr = none) (hk : i.kind = .undefinedNonBasic)

/-- Everything an executed instruction can do. -/
inductive ExecCase (i : Instr) (s t : State) : Prop where
  | fault (f : FatalError) (hf : ExecFault i s f) (ht : t = raiseFatal s (some (encodeWord i)) f)
  | plain (a b : OperandClass) (r : Word) (hi : i ∈ plainWriters a b) (hl : a.isLiteral = false)
      (hr : OperandsInRange a b s)
      (ht : t = (resolvedOperands a b s).tA.write r (resolvedOperands a b s).st)
  | resultThenO (a b : OperandClass) (r o : Word) (hi : i ∈ flagWriters a b) (hl : a.isLiteral = false)
      (hr : OperandsInRange a b s)
      (ht : t = ((resolvedOperands a b s).tA.write r (resolvedOperands a b s).st).setO o)
  | oThenResult (a b : OperandClass) (r o : Word) (hi : i ∈ flagWriters a b) (hl : a.isLiteral = false)
      (hr : OperandsInRange a b s)
      (ht : t = (resolvedOperands a b s).tA.write r ((resolvedOperands a b s).st.setO o))
  | conditional (a b : OperandClass) (v : Bool) (hi : i ∈ conditionals a b) (hr : OperandsInRange a b s)
      (hv : v = true ↔ ConditionFalse i a b (resolvedOperands a b s).vA (resolvedOperands a b s).vB)
      (ht : t = (resolvedOperands a b s).st.setSkip v)
  | jsr (b : OperandClass) (hi : i = .jsr b) (hr : OperandInRange b s.advance)
      (hs : ((afterOperand b s.advance).sp - 1).toNat < s.memWords)
      (ht : t = (((afterOperand b s.advance).setSp ((afterOperand b s.advance).sp - 1)).writeMem
        ((afterOperand b s.advance).sp - 1) (afterOperand b s.advance).pc).setPc
          ((operandTarget b s.advance).read (afterOperand b s.advance)))
  | halt (b : OperandClass) (hi : i = .halt b) (hr : OperandInRange b s.advance)
      (ht : t = (afterOperand b s.advance).setStatus .halted)

/-- An instruction that writes operand A ends in a fatal error or in its effect. -/
theorem writing_cases {i : Instr} {a b : OperandClass} {s t : State} {effect : Operands → State}
    (hk : a.isLiteral = true → i.kind = .literalDestination) (h : writing i a b s effect = .next t) :
    (∃ f, ExecFault i s f ∧ t = raiseFatal s (some (encodeWord i)) f) ∨
      (a.isLiteral = false ∧ OperandsInRange a b s ∧ t = effect (resolvedOperands a b s)) := by
  cases hl : a.isLiteral with
  | true =>
    rw [writing_of_literal i b s effect hl] at h
    cases h
    exact .inl ⟨_, .literal rfl rfl (hk hl), rfl⟩
  | false =>
    cases hf : operandsFault a b s with
    | some f =>
      rw [writing_of_fault i effect hl hf] at h
      cases h
      obtain ⟨hc, addr, ha, hr⟩ := operandsFault_out_of_range hf
      exact .inl ⟨f, .outOfRange addr hc ha hr, rfl⟩
    | none =>
      have hr := (operandsFault_eq_none_iff a b s).mp hf
      rw [writing_of_inRange i effect hl hr] at h
      cases h
      exact .inr ⟨rfl, hr, rfl⟩

/-- A conditional ends in a fatal error of its operands or sets `skip`. -/
theorem conditional_cases {i : Instr} {a b : OperandClass} {s t : State} {cond : Word → Word → Bool}
    (h : conditional i a b s cond = .next t) :
    (∃ f, ExecFault i s f ∧ t = raiseFatal s (some (encodeWord i)) f) ∨
      (OperandsInRange a b s ∧ t = (resolvedOperands a b s).st.setSkip
        (!cond (resolvedOperands a b s).vA (resolvedOperands a b s).vB)) := by
  cases hf : operandsFault a b s with
  | some f =>
    rw [conditional_of_fault i cond hf] at h
    cases h
    obtain ⟨hc, addr, ha, hr⟩ := operandsFault_out_of_range hf
    exact .inl ⟨f, .outOfRange addr hc ha hr, rfl⟩
  | none =>
    have hr := (operandsFault_eq_none_iff a b s).mp hf
    rw [conditional_of_inRange i cond hr] at h
    cases h
    exact .inr ⟨hr, rfl⟩

/-- Everything an executed instruction can do. -/
theorem exec_cases {i : Instr} {s t : State} (h : exec i s = .next t) : ExecCase i s t := by
  cases i with
  | set a b | mod a b | and a b | bor a b | xor a b =>
    obtain ⟨f, hf, rfl⟩ | ⟨hl, hr, rfl⟩ := writing_cases (by simp [Instr.kind, Instr.form, opcodeWritesA]) h
    · exact .fault f hf rfl
    · exact .plain a b _ (by simp [plainWriters]) hl hr rfl
  | add a b | sub a b | mul a b =>
    obtain ⟨f, hf, rfl⟩ | ⟨hl, hr, rfl⟩ := writing_cases (by simp [Instr.kind, Instr.form, opcodeWritesA]) h
    · exact .fault f hf rfl
    · exact .resultThenO a b _ _ (by simp [flagWriters]) hl hr rfl
  | shl a b | shr a b =>
    obtain ⟨f, hf, rfl⟩ | ⟨hl, hr, rfl⟩ := writing_cases (by simp [Instr.kind, Instr.form, opcodeWritesA]) h
    · exact .fault f hf rfl
    · exact .oThenResult a b _ _ (by simp [flagWriters]) hl hr rfl
  | div a b =>
    obtain ⟨f, hf, rfl⟩ | ⟨hl, hr, rfl⟩ := writing_cases (by simp [Instr.kind, Instr.form, opcodeWritesA]) h
    · exact .fault f hf rfl
    · by_cases hz : (resolvedOperands a b s).vB = 0
      · exact .resultThenO a b 0 0 (by simp [flagWriters]) hl hr (if_pos hz)
      · exact .oThenResult a b _ _ (by simp [flagWriters]) hl hr (if_neg hz)
  | ife a b =>
    obtain ⟨f, hf, rfl⟩ | ⟨hr, rfl⟩ := conditional_cases (show execIfe a b s = .next t from h)
    · exact .fault f hf rfl
    · exact .conditional a b _ (by simp [conditionals]) hr (by simp [ConditionFalse]) rfl
  | ifn a b =>
    obtain ⟨f, hf, rfl⟩ | ⟨hr, rfl⟩ := conditional_cases (show execIfn a b s = .next t from h)
    · exact .fault f hf rfl
    · exact .conditional a b _ (by simp [conditionals]) hr (by simp [ConditionFalse]) rfl
  | ifg a b =>
    obtain ⟨f, hf, rfl⟩ | ⟨hr, rfl⟩ := conditional_cases (show execIfg a b s = .next t from h)
    · exact .fault f hf rfl
    · exact .conditional a b _ (by simp [conditionals]) hr (by simp [ConditionFalse]) rfl
  | ifb a b =>
    obtain ⟨f, hf, rfl⟩ | ⟨hr, rfl⟩ := conditional_cases (show execIfb a b s = .next t from h)
    · exact .fault f hf rfl
    · exact .conditional a b _ (by simp [conditionals]) hr (by simp [ConditionFalse]) rfl
  | jsr b =>
    simp only [exec, execJsr_eq] at h
    split at h
    · rename_i f hf
      cases h
      obtain ⟨hc, addr, ha, hr⟩ := operandFault_out_of_range hf
      exact .fault f (.outOfRange addr hc ha (by simpa using hr)) rfl
    · rename_i hf
      split at h
      · rename_i hs
        cases h
        exact .jsr b rfl ((operandFault_eq_none_iff b s.advance).mp hf) hs rfl
      · rename_i hs
        cases h
        exact .fault _ (.outOfRange _ (.inr rfl) rfl (Nat.le_of_not_lt hs)) rfl
  | halt b =>
    simp only [exec, execHalt_eq] at h
    split at h
    · rename_i f hf
      cases h
      obtain ⟨hc, addr, ha, hr⟩ := operandFault_out_of_range hf
      exact .fault f (.outOfRange addr hc ha (by simpa using hr)) rfl
    · rename_i hf
      cases h
      exact .halt b rfl ((operandFault_eq_none_iff b s.advance).mp hf) rfl
  | undefinedNonBasic opcode b =>
    cases h
    exact .fault _ (.undefined rfl rfl rfl) rfl

/-- A completed instruction processing always answers a next state. -/
theorem complete_next (i : Instr) (s : State) (r : Except FatalError State) : ∃ t, complete i s r = .next t := by
  cases r with
  | ok t => exact ⟨t, rfl⟩
  | error f => exact ⟨_, rfl⟩

/-- Every instruction answers a next state, in every state. -/
theorem exec_next (i : Instr) (s : State) : ∃ t, exec i s = .next t := by
  cases i with
  | undefinedNonBasic opcode b => exact complete_next (.undefinedNonBasic opcode b) s (.error ⟨.undefinedNonBasic, none⟩)
  | _ => exact complete_next _ _ _

/-! ## What an instruction stores -/

/-- An instruction that writes operand A, a cell: it faults, or the cell holds the result and the run's controls are as
they were. The effect may write O before or after. -/
theorem writing_stored {i : Instr} {a b : OperandClass} {s t : State} {effect : Operands → State} {addr v : Word}
    (hm : Memory.wf s.mem = true) (ha : operandTarget a s.advance = .mem addr)
    (he : (∃ o, effect (resolvedOperands a b s) = resultThenO (.mem addr) v o (resolvedOperands a b s).st) ∨
      (∃ o, effect (resolvedOperands a b s) = oThenResult (.mem addr) v o (resolvedOperands a b s).st) ∨
      effect (resolvedOperands a b s) = (Target.mem addr).write v (resolvedOperands a b s).st)
    (hk : a.isLiteral = true → i.kind = .literalDestination) (h : writing i a b s effect = .next t)
    (hn : t.status ≠ .faulted) :
    t.readMem addr = v ∧ addr.toNat < s.memWords ∧ t.skip = s.skip ∧ t.memWords = s.memWords ∧
      t.status = s.status := by
  obtain ⟨f, -, rfl⟩ | ⟨-, hr, rfl⟩ := writing_cases hk h
  · exact absurd rfl hn
  · have hlt : addr.toNat < s.memWords := by
      have := hr.1.2
      rw [ha] at this
      exact of_decide_eq_true this
    have hread : ∀ u : State, u.mem = s.mem → (u.writeMem addr v).readMem addr = v := fun u hu =>
      State.readMem_writeMem_same (hu ▸ hm) addr v
    obtain ⟨o, he⟩ | ⟨o, he⟩ | he := he <;> rw [he]
    · exact ⟨hread _ (by simp), hlt, by simp [resultThenO, Target.write], by simp [resultThenO, Target.write],
        by simp [resultThenO, Target.write]⟩
    · exact ⟨hread _ (by simp), hlt, by simp [oThenResult, Target.write], by simp [oThenResult, Target.write],
        by simp [oThenResult, Target.write]⟩
    · exact ⟨hread _ (by simp), hlt, by simp [Target.write], by simp [Target.write], by simp [Target.write]⟩

/-- An instruction that stores a word and does not fault leaves that word in its cell, which the block owns, and the
run's controls as they were. -/
theorem exec_stored {i : Instr} {s t : State} {addr v : Word} (hm : Memory.wf s.mem = true)
    (hst : storedWord i s = some (addr, v)) (h : exec i s = .next t) (hn : t.status ≠ .faulted) :
    t.readMem addr = v ∧ addr.toNat < s.memWords ∧ t.skip = s.skip ∧ t.memWords = s.memWords ∧
      t.status = s.status := by
  cases i with
  | ife a b | ifn a b | ifg a b | ifb a b | halt b | undefinedNonBasic opcode b => simp [storedWord] at hst
  | jsr b =>
    simp only [storedWord, Option.some.injEq, Prod.mk.injEq] at hst
    obtain ⟨rfl, rfl⟩ := hst
    cases exec_cases h with
    | fault f hf ht => exact absurd (by rw [ht]; rfl) hn
    | jsr b' hi hr hs ht =>
      cases hi
      subst ht
      exact ⟨State.readMem_writeMem_same (by simpa using hm) _ _, hs, by simp, by simp, by simp⟩
    | plain a b r hi | resultThenO a b r o hi | oThenResult a b r o hi | conditional a b v hi =>
      simp [plainWriters, flagWriters, conditionals] at hi
    | halt b hi => cases hi
  | div a b =>
    simp only [storedWord] at hst
    split at hst
    · rename_i ad ha
      simp only [writtenWord, Option.map_some, Option.some.injEq, Prod.mk.injEq] at hst
      obtain ⟨rfl, rfl⟩ := hst
      refine writing_stored hm ha ?_ (by simp [Instr.kind, Instr.form, opcodeWritesA]) h hn
      by_cases hz : (resolvedOperands a b s).vB = 0
      · refine .inl ⟨0, ?_⟩
        rw [if_pos hz, resolvedOperands_tA, ha]
        simp [divResult, hz]
      · refine .inr (.inl ⟨divOverflow (resolvedOperands a b s).vA (resolvedOperands a b s).vB, ?_⟩)
        rw [if_neg hz, resolvedOperands_tA, ha]
    all_goals cases hst
  | set a b | add a b | sub a b | mul a b | mod a b | shl a b | shr a b | and a b | bor a b | xor a b =>
    simp only [storedWord] at hst
    split at hst
    · rename_i ad ha
      simp only [writtenWord, Option.map_some, Option.some.injEq, Prod.mk.injEq] at hst
      obtain ⟨rfl, rfl⟩ := hst
      refine writing_stored hm ha ?_ (by simp [Instr.kind, Instr.form, opcodeWritesA]) h hn
      rw [resolvedOperands_tA, ha]
      first | exact .inr (.inr rfl) | exact .inl ⟨_, rfl⟩ | exact .inr (.inl ⟨_, rfl⟩)
    all_goals cases hst

/-! ## What a skipped instruction can do -/

/-- The discarded fetches move PC alone, or raise fatal code 2 at the first address out of range. -/
theorem skipExtras_cases (n : Nat) (s : State) :
    (∃ addr, skipExtras n s = .error ⟨.extraWordOutOfRange, some addr⟩ ∧ s.memWords ≤ addr.toNat) ∨
      skipExtras n s = .ok (s.setPc (s.pc + BitVec.ofNat 16 n)) := by
  induction n generalizing s with
  | zero => exact .inr (by simp [skipExtras, State.setPc, pure, Except.pure])
  | succ n ih =>
    by_cases hp : s.pc.toNat < s.memWords
    · have h : skipExtras (n + 1) s = skipExtras n s.advance := by
        simp [skipExtras, fetchExtra, checkExtra, hp, bind, Except.bind, pure, Except.pure]
      rw [h]
      obtain ⟨addr, he, ha⟩ | he := ih s.advance
      · exact .inl ⟨addr, he, by simpa using ha⟩
      · refine .inr ?_
        rw [he]
        simp only [State.advance, State.setPc, BitVec.add_assoc, Except.ok.injEq, State.mk.injEq, true_and, and_true]
        rw [BitVec.add_right_inj]
        simp [BitVec.ofNat_add, BitVec.add_comm]
    · refine .inl ⟨s.pc, ?_, Nat.le_of_not_lt hp⟩
      simp [skipExtras, fetchExtra, checkExtra, hp, bind, Except.bind]

/-- Everything a skipped instruction can do. -/
theorem skipInstr_cases {i : Instr} {s t : State} (h : skipInstr i s = .next t) :
    (i.extraWords = none ∧ t = raiseFatal s (some (encodeWord i)) ⟨.undefinedNonBasic, none⟩) ∨
      (∃ addr, s.memWords ≤ addr.toNat ∧
        t = raiseFatal s (some (encodeWord i)) ⟨.extraWordOutOfRange, some addr⟩) ∨
      ∃ n, i.extraWords = some n ∧ t = (s.setPc (s.pc + 1 + BitVec.ofNat 16 n)).setSkip false := by
  unfold skipInstr at h
  cases hx : i.extraWords with
  | none =>
    simp only [hx, complete] at h
    cases h
    exact .inl ⟨rfl, rfl⟩
  | some n =>
    simp only [hx] at h
    obtain ⟨addr, he, ha⟩ | he := skipExtras_cases n s.advance
    · simp only [he, bind, Except.bind, complete] at h
      cases h
      exact .inr (.inl ⟨addr, by simpa using ha, rfl⟩)
    · simp only [he, bind, Except.bind, complete, pure, Except.pure] at h
      cases h
      exact .inr (.inr ⟨n, rfl, rfl⟩)

/-! ## What a step can do -/

theorem fetchInstr_eq (s : State) :
    fetchInstr s = if s.pc.toNat < s.memWords then .ok (s.readMem s.pc) else .error ⟨.fetchOutOfRange, some s.pc⟩ := rfl

/-- A step from a running state: the fetch fails, or the instruction at PC is skipped, or it is executed. -/
theorem step_cases {s t : State} (hs : s.status = .running) (h : step s = .next t) :
    (s.memWords ≤ s.pc.toNat ∧ t = raiseFatal s none ⟨.fetchOutOfRange, some s.pc⟩) ∨
      (s.pc.toNat < s.memWords ∧ s.skip = true ∧ skipInstr (decode (s.readMem s.pc)) s = .next t) ∨
      (s.pc.toNat < s.memWords ∧ s.skip = false ∧ exec (decode (s.readMem s.pc)) s = .next t) := by
  unfold step at h
  rw [hs, fetchInstr_eq] at h
  by_cases hp : s.pc.toNat < s.memWords
  · rw [if_pos hp] at h
    cases hk : s.skip with
    | true =>
      simp only [hk, if_true] at h
      exact .inr (.inl ⟨hp, rfl, h⟩)
    | false =>
      simp only [hk] at h
      exact .inr (.inr ⟨hp, rfl, h⟩)
  · rw [if_neg hp] at h
    cases h
    exact .inl ⟨Nat.le_of_not_lt hp, rfl⟩

/-- A step answers a next state exactly from a running state. -/
theorem step_of_not_running {s t : State} (h : step s = .next t) : s.status = .running := by
  unfold step at h
  cases hs : s.status with
  | running => rfl
  | halted => rw [hs] at h; cases h
  | faulted => rw [hs] at h; cases h

end Sys2Proof.Machine
end

