-- ==== Sys2Proof/Laws/PerInstr.lean ====
section
/-! SUPPORT. Facts of every instruction as syntax, one lemma per constructor. -/

namespace Sys2Proof.Laws

/-- The fields of the encoded word are the instruction's opcode and operand codes, and a basic opcode is not 0
(30_encoding.md R90 to R93). -/
def Fields.Statement (i : Instr) : Prop :=
  match i.form with
  | .basic op a b => op ≠ 0#4 ∧ opField (encodeWord i) = op ∧ aField (encodeWord i) = a.code ∧
      bField (encodeWord i) = b.code
  | .nonBasic n b => opField (encodeWord i) = 0#4 ∧ aField (encodeWord i) = n ∧ bField (encodeWord i) = b.code
  | .undefined n b => opField (encodeWord i) = 0#4 ∧ aField (encodeWord i) = n ∧ bField (encodeWord i) = b

theorem Fields.set (a b : OperandClass) : Fields.Statement (.set a b) := by
  simp [Fields.Statement, Instr.form, encodeWord]

theorem Fields.add (a b : OperandClass) : Fields.Statement (.add a b) := by
  simp [Fields.Statement, Instr.form, encodeWord]

theorem Fields.sub (a b : OperandClass) : Fields.Statement (.sub a b) := by
  simp [Fields.Statement, Instr.form, encodeWord]

theorem Fields.mul (a b : OperandClass) : Fields.Statement (.mul a b) := by
  simp [Fields.Statement, Instr.form, encodeWord]

theorem Fields.div (a b : OperandClass) : Fields.Statement (.div a b) := by
  simp [Fields.Statement, Instr.form, encodeWord]

theorem Fields.mod (a b : OperandClass) : Fields.Statement (.mod a b) := by
  simp [Fields.Statement, Instr.form, encodeWord]

theorem Fields.shl (a b : OperandClass) : Fields.Statement (.shl a b) := by
  simp [Fields.Statement, Instr.form, encodeWord]

theorem Fields.shr (a b : OperandClass) : Fields.Statement (.shr a b) := by
  simp [Fields.Statement, Instr.form, encodeWord]

theorem Fields.and (a b : OperandClass) : Fields.Statement (.and a b) := by
  simp [Fields.Statement, Instr.form, encodeWord]

theorem Fields.bor (a b : OperandClass) : Fields.Statement (.bor a b) := by
  simp [Fields.Statement, Instr.form, encodeWord]

theorem Fields.xor (a b : OperandClass) : Fields.Statement (.xor a b) := by
  simp [Fields.Statement, Instr.form, encodeWord]

theorem Fields.ife (a b : OperandClass) : Fields.Statement (.ife a b) := by
  simp [Fields.Statement, Instr.form, encodeWord]

theorem Fields.ifn (a b : OperandClass) : Fields.Statement (.ifn a b) := by
  simp [Fields.Statement, Instr.form, encodeWord]

theorem Fields.ifg (a b : OperandClass) : Fields.Statement (.ifg a b) := by
  simp [Fields.Statement, Instr.form, encodeWord]

theorem Fields.ifb (a b : OperandClass) : Fields.Statement (.ifb a b) := by
  simp [Fields.Statement, Instr.form, encodeWord]

theorem Fields.jsr (b : OperandClass) : Fields.Statement (.jsr b) := by
  simp [Fields.Statement, Instr.form, encodeWord]

theorem Fields.halt (b : OperandClass) : Fields.Statement (.halt b) := by
  simp [Fields.Statement, Instr.form, encodeWord]

theorem Fields.undefinedNonBasic (n b : BitVec 6) : Fields.Statement (.undefinedNonBasic n b) := by
  simp [Fields.Statement, Instr.form, encodeWord]

/-- The length is 1 to 3 words, or undefined for an undefined non-basic instruction alone (30_encoding.md R104). -/
def Length.Statement (i : Instr) : Prop :=
  match i.length with
  | some n => 1 ≤ n ∧ n ≤ 3 ∧ i.kind ≠ .undefinedNonBasic
  | none => i.kind = .undefinedNonBasic

/-- A basic instruction of either destination kind is 1 to 3 words long. -/
theorem Length.of_basic {i : Instr} {op : BitVec 4} {a b : OperandClass} (h : i.form = .basic op a b) :
    Length.Statement i := by
  have ha := a.extraWords_le_one
  have hb := b.extraWords_le_one
  simp only [Length.Statement, Instr.length, Instr.extraWords, Instr.kind, h, Option.map_some]
  refine ⟨by omega, by omega, ?_⟩
  split <;> simp

/-- A non-basic instruction is 1 or 2 words long. -/
theorem Length.of_nonBasic {i : Instr} {n : BitVec 6} {b : OperandClass} (h : i.form = .nonBasic n b) :
    Length.Statement i := by
  have hb := b.extraWords_le_one
  simp only [Length.Statement, Instr.length, Instr.extraWords, Instr.kind, h, Option.map_some]
  refine ⟨by omega, by omega, ?_⟩
  split <;> simp

theorem Length.set (a b : OperandClass) : Length.Statement (.set a b) := Length.of_basic rfl
theorem Length.add (a b : OperandClass) : Length.Statement (.add a b) := Length.of_basic rfl
theorem Length.sub (a b : OperandClass) : Length.Statement (.sub a b) := Length.of_basic rfl
theorem Length.mul (a b : OperandClass) : Length.Statement (.mul a b) := Length.of_basic rfl
theorem Length.div (a b : OperandClass) : Length.Statement (.div a b) := Length.of_basic rfl
theorem Length.mod (a b : OperandClass) : Length.Statement (.mod a b) := Length.of_basic rfl
theorem Length.shl (a b : OperandClass) : Length.Statement (.shl a b) := Length.of_basic rfl
theorem Length.shr (a b : OperandClass) : Length.Statement (.shr a b) := Length.of_basic rfl
theorem Length.and (a b : OperandClass) : Length.Statement (.and a b) := Length.of_basic rfl
theorem Length.bor (a b : OperandClass) : Length.Statement (.bor a b) := Length.of_basic rfl
theorem Length.xor (a b : OperandClass) : Length.Statement (.xor a b) := Length.of_basic rfl
theorem Length.ife (a b : OperandClass) : Length.Statement (.ife a b) := Length.of_basic rfl
theorem Length.ifn (a b : OperandClass) : Length.Statement (.ifn a b) := Length.of_basic rfl
theorem Length.ifg (a b : OperandClass) : Length.Statement (.ifg a b) := Length.of_basic rfl
theorem Length.ifb (a b : OperandClass) : Length.Statement (.ifb a b) := Length.of_basic rfl
theorem Length.jsr (b : OperandClass) : Length.Statement (.jsr b) := Length.of_nonBasic rfl
theorem Length.halt (b : OperandClass) : Length.Statement (.halt b) := Length.of_nonBasic rfl
theorem Length.undefinedNonBasic (n b : BitVec 6) : Length.Statement (.undefinedNonBasic n b) := rfl

end Sys2Proof.Laws
end

