-- ==== Sys2Proof/Tests/Slice0.lean ====
section
/-! SUPPORT. Tests of the model, each on one step or one operation, with the expected values of 95_test_vectors.md (the
vector is named in each docstring); and one witness for every statement that has hypotheses. -/

namespace Sys2Proof.Tests

open Sys2Proof Sys2Proof.Machine

/-- The reset state with capacity `memWords` and `words` loaded from address 0. -/
def load (memWords : Nat) (words : List Word) : State := (State.resetWith memWords []).storeWords 0 words

/-- Whether the outcome is a next state of which `p` holds. -/
def check (out : Outcome) (p : State → Bool) : Bool :=
  match out with
  | .next t => p t
  | .fault _ | .refused _ => false

/-- Whether the outcome is the end of the run with this fault record. -/
def faultedWith (out : Outcome) (code : FatalCode) (instPc : Word) (instWord addr : Option Word) : Bool :=
  check out fun t => t.status == .faulted && t.fault == some ⟨code, instPc, instWord, addr⟩

/-- The next state of an outcome, or `s`. -/
def nextOr (out : Outcome) (s : State) : State :=
  match out with
  | .next t => t
  | .fault _ | .refused _ => s

/-! ## Well-formed terms -/

theorem test_wellFormed_refuses_halt_as_undefined : (Instr.undefinedNonBasic 0x00 0x3f).wellFormed = false := by decide

theorem test_wellFormed_refuses_jsr_as_undefined : (Instr.undefinedNonBasic 0x01 0x00).wellFormed = false := by decide

theorem test_wellFormed_accepts_undefined :
    (Instr.undefinedNonBasic 0x02 0x00).wellFormed = true ∧ (Instr.undefinedNonBasic 0x3f 0x3f).wellFormed = true := by
  decide

/-! ## Decoding: words written out as 30_encoding.md R90 lays them out, bits [15:10], [9:4], [3:0] -/

theorem test_decode_set : decode (0b000000#6 ++ 0b000001#6 ++ 0b0001#4) = .set (.reg .b) (.reg .a) := by decide
theorem test_decode_add : decode (0b100010#6 ++ 0b000000#6 ++ 0b0010#4) = .add (.reg .a) (.lit 2) := by decide
theorem test_decode_sub : decode (0b100001#6 ++ 0b000110#6 ++ 0b0011#4) = .sub (.reg .i) (.lit 1) := by decide
theorem test_decode_mul : decode (0b011111#6 ++ 0b011101#6 ++ 0b0100#4) = .mul .o .nextLit := by decide
theorem test_decode_div : decode (0b000111#6 ++ 0b001011#6 ++ 0b0101#4) = .div (.ind .x) (.reg .j) := by decide
theorem test_decode_mod : decode (0b010100#6 ++ 0b000100#6 ++ 0b0110#4) = .mod (.reg .y) (.indexed .y) := by decide
theorem test_decode_shl : decode (0b100100#6 ++ 0b011101#6 ++ 0b0111#4) = .shl .o (.lit 4) := by decide
theorem test_decode_shr : decode (0b011001#6 ++ 0b000101#6 ++ 0b1000#4) = .shr (.reg .z) .peek := by decide
theorem test_decode_and : decode (0b001111#6 ++ 0b010000#6 ++ 0b1001#4) = .and (.indexed .a) (.ind .j) := by decide
theorem test_decode_bor : decode (0b111111#6 ++ 0b011110#6 ++ 0b1010#4) = .bor .indNext (.lit 31) := by decide
theorem test_decode_xor : decode (0b011011#6 ++ 0b011010#6 ++ 0b1011#4) = .xor .push .sp := by decide
theorem test_decode_ife : decode (0b011000#6 ++ 0b011100#6 ++ 0b1100#4) = .ife .pc .pop := by decide
theorem test_decode_ifn : decode (0b100000#6 ++ 0b000110#6 ++ 0b1101#4) = .ifn (.reg .i) (.lit 0) := by decide
theorem test_decode_ifg : decode (0b000010#6 ++ 0b100101#6 ++ 0b1110#4) = .ifg (.lit 5) (.reg .c) := by decide
theorem test_decode_ifb : decode (0b001000#6 ++ 0b010111#6 ++ 0b1111#4) = .ifb (.indexed .j) (.ind .a) := by decide
theorem test_decode_halt : decode (0b011000#6 ++ 0b000000#6 ++ 0b0000#4) = .halt .pop := by decide
theorem test_decode_jsr : decode (0b011111#6 ++ 0b000001#6 ++ 0b0000#4) = .jsr .nextLit := by decide
theorem test_decode_undefined : decode (0b000000#6 ++ 0b000010#6 ++ 0b0000#4) = .undefinedNonBasic 0x02 0x00 := by decide

/-- The ends of every range of 30_encoding.md R94. -/
theorem test_operand_codes :
    ([0x00, 0x07, 0x08, 0x0f, 0x10, 0x17, 0x18, 0x19, 0x1a, 0x1b, 0x1c, 0x1d, 0x1e, 0x1f, 0x20, 0x3f] :
      List (BitVec 6)).map OperandClass.ofCode =
      [.reg .a, .reg .j, .ind .a, .ind .j, .indexed .a, .indexed .j, .pop, .peek, .push, .sp, .pc, .o, .indNext,
        .nextLit, .lit 0, .lit 31] := by decide

/-- 30_encoding.md section 7: `SET [0x1000 + A], 0x30`, operand A's extra word first. -/
theorem test_decodeStream_two_extra_words :
    decodeStream [0x7d01, 0x1000, 0x0030, 0x8802] =
      .ok ⟨.set (.indexed .a) .nextLit, [0x1000, 0x0030], [0x8802]⟩ := by rfl

theorem test_decodeTableWord :
    decodeTableWord 16 0x7c01 = some (.set (.reg .a) .nextLit) ∧ decodeTableWord 10 0x10 = some (.jsr (.reg .a)) := by
  decide

/-! ## The host's load -/

/-- V19, placed by `withFetchWord`. -/
theorem test_withFetchWord : check (step (State.reset.withFetchWord 16 0xfc01)) (fun t => t.reg .a == 0x1f) = true := by
  decide

/-- 20_memory.md R70 at its boundary. -/
theorem test_load_fits : ((load 2 []).load [1, 2]).isSome = true ∧ (load 2 []).load [1, 2, 3] = none := by decide

/-- 00_scope.md R13. -/
theorem test_imageWords : imageWords .little [0x01, 0x7c] = some [0x7c01] ∧ imageWords .big [0x7c, 0x01] = some [0x7c01] ∧
    imageWords .big [0x7c] = none := by decide

/-! ## Move and arithmetic -/

/-- V5: the indexed address wraps. -/
theorem test_set_indexed_wraps :
    check (step (((load 65536 [0x4401, 0xffff]).setReg .b 0x20).writeMem 0x1f 0x4444))
      (fun t => t.reg .a == 0x4444 && t.pc == 2) = true := by decide

/-- V24: operand B is read after operand A's push. -/
theorem test_set_push_sp :
    check (step ((load 65536 [0x6da1]).setSp 0xfff0))
      (fun t => t.sp == 0xffef && t.readMem 0xffef == 0xffef) = true := by decide

/-- S1. -/
theorem test_add_wraps :
    check (step ((load 65536 [0x8402]).setReg .a 0xffff)) (fun t => t.reg .a == 0 && t.o == 1 && t.pc == 1) = true := by
  decide

/-- V38: two extra words, operand A's first. -/
theorem test_add_two_extra_words :
    check (step (((load 65536 [0x4102, 0x1000, 0x1001]).setReg .a 1).writeMem 0x1001 5 |>.writeMem 0x1002 6))
      (fun t => t.readMem 0x1001 == 0xb && t.pc == 3) = true := by decide

/-- S2. -/
theorem test_sub_borrows :
    check (step (load 65536 [0x8403])) (fun t => t.reg .a == 0xffff && t.o == 0xffff && t.pc == 1) = true := by decide

/-- V42: PC as destination. -/
theorem test_sub_pc : check (step (load 65536 [0x89c3])) (fun t => t.pc == 0xffff && t.o == 0xffff) = true := by decide

/-- V43. -/
theorem test_mul_high_word :
    check (step ((load 65536 [0x7c04, 0xffff]).setReg .a 0xffff)) (fun t => t.reg .a == 1 && t.o == 0xfffe) = true := by
  decide

/-- V47: O as destination, the high word written last. -/
theorem test_mul_o : check (step ((load 65536 [0x7dd4, 0x0100]).setO 0x1234)) (fun t => t.o == 0x12) = true := by decide

/-- V54: O as destination, the quotient written last. -/
theorem test_div_o : check (step ((load 65536 [0x89d5]).setO 7)) (fun t => t.o == 3) = true := by decide

/-- S3. -/
theorem test_div_by_zero :
    check (step (((load 65536 [0x8005]).setReg .a 0x1234).setO 0x55))
      (fun t => t.reg .a == 0 && t.o == 0 && t.status == .running) = true := by decide

/-- V56. -/
theorem test_mod : check (step ((load 65536 [0x9406]).setReg .a 17)) (fun t => t.reg .a == 2) = true := by decide

/-- V55: O unchanged. -/
theorem test_mod_by_zero :
    check (step (((load 65536 [0x8006]).setReg .a 0x1234).setO 0x55)) (fun t => t.reg .a == 0 && t.o == 0x55) = true := by
  decide

/-! ## Shift and logic -/

/-- V64: a shift amount above 16. -/
theorem test_shl_by_20 :
    check (step ((load 65536 [0xd007]).setReg .a 0xffff)) (fun t => t.reg .a == 0 && t.o == 0xfff0) = true := by decide

/-- V67: O as destination, the result written last. -/
theorem test_shl_o : check (step ((load 65536 [0x91d7]).setO 0x1234)) (fun t => t.o == 0x2340) = true := by decide

/-- V70. -/
theorem test_shr : check (step ((load 65536 [0x9008]).setReg .a 0x1234))
    (fun t => t.reg .a == 0x0123 && t.o == 0x4000) = true := by decide

/-- V73: a shift amount above 16. -/
theorem test_shr_by_20 :
    check (step ((load 65536 [0xd008]).setReg .a 0x1234)) (fun t => t.reg .a == 0 && t.o == 0x0123) = true := by decide

/-- V76: O unchanged. -/
theorem test_and :
    check (step (((load 65536 [0x7c09, 0x0ff0]).setReg .a 0xff0f).setO 0x55))
      (fun t => t.reg .a == 0x0f00 && t.o == 0x55) = true := by decide

/-- V82: O as destination. -/
theorem test_and_o : check (step ((load 65536 [0x7dd9, 0x00ff]).setO 0x1234)) (fun t => t.o == 0x34) = true := by decide

/-- V78. -/
theorem test_bor : check (step ((load 65536 [0xbc0a]).setReg .a 0x00f0)) (fun t => t.reg .a == 0xff) = true := by decide

/-- V81. -/
theorem test_xor : check (step ((load 65536 [0x7c0b, 0xffff]).setReg .a 0x0f0f)) (fun t => t.reg .a == 0xf0f0) = true := by
  decide

/-! ## Conditionals: the first of each vector's two steps, seen in `skip` -/

/-- V94: a literal operand A is accepted. -/
theorem test_ife_literal : check (step (load 65536 [0x965c])) (fun t => !t.skip && t.status == .running) = true := by decide

/-- V84. -/
theorem test_ife_false :
    check (step (((load 65536 [0x040c]).setReg .a 1).setReg .b 2)) (fun t => t.skip && t.pc == 1) = true := by decide

/-- V85. -/
theorem test_ifn_false : check (step (((load 65536 [0x040d]).setReg .a 1).setReg .b 1)) (·.skip) = true := by decide

/-- V86. -/
theorem test_ifn_true : check (step ((load 65536 [0x040d]).setReg .a 0xffff)) (fun t => !t.skip) = true := by decide

/-- V87: equal is not greater. -/
theorem test_ifg_equal : check (step (((load 65536 [0x040e]).setReg .a 1).setReg .b 1)) (·.skip) = true := by decide

/-- V90: unsigned. -/
theorem test_ifg_unsigned : check (step ((load 65536 [0x040e]).setReg .a 0xffff)) (fun t => !t.skip) = true := by decide

/-- V91. -/
theorem test_ifb_true : check (step (((load 65536 [0x040f]).setReg .a 1).setReg .b 1)) (fun t => !t.skip) = true := by decide

/-- V92. -/
theorem test_ifb_false : check (step (((load 65536 [0x040f]).setReg .a 6).setReg .b 1)) (·.skip) = true := by decide

/-! ## Non-basic instructions -/

/-- V105. -/
theorem test_jsr :
    check (step (load 65536 [0x7c10, 0x0030]))
      (fun t => t.sp == 0xffff && t.readMem 0xffff == 2 && t.pc == 0x30) = true := by decide

/-- V107: the pop precedes the push. -/
theorem test_jsr_pop :
    check (step (((load 65536 [0x6010]).setSp 0xfff0).writeMem 0xfff0 0x40))
      (fun t => t.pc == 0x40 && t.sp == 0xfff0 && t.readMem 0xfff0 == 1) = true := by decide

/-- V114. -/
theorem test_halt_pop :
    check (step ((load 65536 [0x6000]).setSp 0xfff0)) (fun t => t.status == .halted && t.sp == 0xfff1 && t.pc == 1) = true := by
  decide

/-- V126: operand B is evaluated before halting. -/
theorem test_halt_operand_out_of_range :
    faultedWith (step (load 16 [0x7800, 0x0020])) .operandAddressOutOfRange 0 (some 0x7800) (some 0x20) = true := by decide

/-- V116. -/
theorem test_undefined_non_basic :
    faultedWith (step (load 65536 [0x0020])) .undefinedNonBasic 0 (some 0x0020) none = true := by decide

/-! ## Skipping and fatal errors -/

/-- V97, its second step: both extra words are consumed. -/
theorem test_skip_two_extra_words :
    check (step ((load 65536 [0x7d01, 0x1000, 0x1234]).setSkip true))
      (fun t => t.pc == 3 && !t.skip && t.readMem 0x1000 == 0) = true := by decide

/-- V98, its second step: no stack effect. -/
theorem test_skip_no_stack_effect :
    check (step (((load 65536 [0x61a1]).setSp 0xfff0).setSkip true)) (fun t => t.pc == 1 && t.sp == 0xfff0) = true := by
  decide

/-- V103, its second step. -/
theorem test_skip_undefined_non_basic :
    faultedWith (step ((load 65536 [0x0020]).setSkip true)) .undefinedNonBasic 0 (some 0x0020) none = true := by decide

/-- V104, its second step, at the address the vector gives it. -/
theorem test_skip_extra_word_out_of_range :
    faultedWith (step (((load 3 [0x840c, 0x7d01, 0x1000]).setPc 1).setSkip true))
      .extraWordOutOfRange 1 (some 0x7d01) (some 3) = true := by decide

/-- V112, its second step. -/
theorem test_fetch_out_of_range :
    faultedWith (step ((load 16 []).setPc 0x30)) .fetchOutOfRange 0x30 none (some 0x30) = true := by decide

/-- V123. -/
theorem test_extra_word_out_of_range :
    faultedWith (step (load 1 [0x7c01])) .extraWordOutOfRange 0 (some 0x7c01) (some 1) = true := by decide

/-- V125: the decode check comes before operand B. -/
theorem test_write_to_literal_first :
    faultedWith (step ((load 16 [0x2651]).setReg .b 16)) .writeToLiteral 0 (some 0x2651) none = true := by decide

/-- No step is taken from a halted state. -/
theorem test_halted_is_final : step ((load 65536 []).setStatus .halted) = .fault .runHalted := by rfl

/-! ## Source text -/

/-- S6 and S7: `SET A, 0x30` and `SET A, -1`; a malformed literal and an unknown mnemonic fail (30_encoding.md R113,
R109). -/
theorem test_assembler :
    (Asm.encodeLines ["SET A, 0x30".toList, "set a,-1 ; comment".toList]).image = some [0x7c01, 0x0030, 0x7c01, 0xffff] ∧
      (Asm.encodeLines ["SET A, 09".toList, "FOO A, B".toList, "loop:".toList, "set [0x1000 + A], 31".toList]).words =
        [0xfd01, 0x1000] ∧
      (Asm.encodeLines ["SET A, 0b2".toList]).image = none := by decide

/-- Log entry 16: a failing line's remainder begins at the first token left over, or at the operand that fails. -/
theorem test_parse_remainder :
    (Asm.encodeLines ["jsr 5 x".toList, "loop: x".toList, "set a, [q".toList]).errors.map (·.remainder) =
      [[.word ['x']], [.word ['x']], [.openBracket, .word ['q']]] := by decide

/-! ## Witnesses: a state and operands that meet each statement's hypotheses

Where a statement has several clauses over one input, the witness meets each of them, at the ends of the ranges. -/

/-- The outcome is the next state that `nextOr` gives. -/
theorem eq_nextOr {out : Outcome} {s : State} (h : (match out with | .next _ => true | _ => false) = true) :
    out = .next (nextOr out s) := by
  cases out with
  | next t => rfl
  | fault r | refused r => cases h

/-- An instruction word per range of codes, at both ends of each. -/
theorem witness_OperandCodesReadAsTabled :
    (0x00#6).toNat < 0x08 ∧ (0x07#6).toNat < 0x08 ∧
    (0x08 ≤ (0x08#6).toNat ∧ (0x08#6).toNat < 0x10) ∧ (0x08 ≤ (0x0f#6).toNat ∧ (0x0f#6).toNat < 0x10) ∧
    (0x10 ≤ (0x10#6).toNat ∧ (0x10#6).toNat < 0x18) ∧ (0x10 ≤ (0x17#6).toNat ∧ (0x17#6).toNat < 0x18) ∧
    0x20 ≤ (0x20#6).toNat ∧ 0x20 ≤ (0x3f#6).toNat := by decide

theorem witness_DecodeEncodeAgree :
    (Instr.undefinedNonBasic 0x02 0x3f).wellFormed = true ∧ (Instr.set (.indexed .j) (.lit 31)).wellFormed = true := by
  decide

theorem witness_EncodedWordsReadBack :
    (Instr.set (.indexed .a) .nextLit).wellFormed = true ∧
    (Instr.set (.indexed .a) .nextLit).extraWords = some [0x1000#16, 0x0030#16].length ∧
    (Instr.halt (.reg .a)).extraWords = some ([] : List Word).length := by decide

/-- Basic; HALT and JSR; the ends of the undefined space. -/
theorem witness_LengthFromFirstWord :
    opField 0x7d01 ≠ 0 ∧ (opField 0x0000 = 0 ∧ (aField 0x0000).toNat < 2) ∧
    (opField 0x7c10 = 0 ∧ (aField 0x7c10).toNat < 2) ∧ (opField 0x0020 = 0 ∧ 2 ≤ (aField 0x0020).toNat) ∧
    (opField 0x03f0 = 0 ∧ 2 ≤ (aField 0x03f0).toNat) := by decide

/-- The last cell of a memory of 16 words, and an image one word too long for it. -/
theorem witness_ResetState :
    (0x000f#16).toNat < 16 ∧ List.lookup (0x000f#16).toNat [(15, 0x1234#16)] = some 0x1234 ∧
    16 < (List.replicate 17 0x1234#16).length := by decide

/-- A canonical memory; two addresses; an image that fills the memory, and an address past a shorter one. -/
theorem witness_MemoryReadsLastWritten :
    Memory.wf (load 2 [7]).mem = true ∧ (0x0000#16) ≠ 0xffff ∧ (load 2 [7]).memWords ≤ 65536 ∧
    [1#16, 2#16].length ≤ (load 2 [7]).memWords ∧ 0 < [1#16, 2#16].length ∧ [1#16].length ≤ (1#16).toNat ∧
    (0x000f#16).toNat < 16 ∧ List.lookup (0x000f#16).toNat [(15, 0x1234#16)] = some 0x1234 := by decide

theorem witness_CanonicalMemory :
    Memory.wf [(0, 1), (65535, 2)] = true ∧
    ∀ addr, Memory.get [(0, 1), (65535, 2)] addr = Memory.get [(0, 1), (65535, 2)] addr := ⟨by decide, fun _ => rfl⟩

theorem witness_TargetsReadAndWrite :
    Instr.set (.lit 5) (.reg .a) ∈ plainWriters (.lit 5) (.reg .a) ++ flagWriters (.lit 5) (.reg .a) ∧
    (OperandClass.lit 5).isLiteral = true ∧
    ∃ t, exec (.set (.lit 5) (.reg .a)) (load 16 []) = .next t :=
  ⟨by decide, by decide, exec_next _ _⟩

/-- Operands in range; operand A's extra word at the first address out of range. -/
theorem witness_OperandsResolveInOrder :
    OperandsInRange (.indexed .a) .nextLit (load 3 [0x7d01, 0x0000, 0x0030]) ∧
    operandsFault .nextLit .pop (load 1 [0x6001]) = some ⟨.extraWordOutOfRange, some 1⟩ := by decide

theorem witness_PcReadsAsNextInstruction :
    Memory.wf (load 16 [0x7c10, 0x0030]).mem = true ∧ (load 16 [0x7c10, 0x0030]).status = .running ∧
    exec (.jsr .nextLit) (load 16 [0x7c10, 0x0030]) =
      .next (nextOr (exec (.jsr .nextLit) (load 16 [0x7c10, 0x0030])) (load 16 [])) ∧
    (nextOr (exec (.jsr .nextLit) (load 16 [0x7c10, 0x0030])) (load 16 [])).status ≠ .faulted :=
  ⟨by decide, by decide, eq_nextOr (by decide), by decide⟩

/-- The push address is the last cell. -/
theorem witness_SetPushPopLeavesStack :
    Memory.wf (load 16 []).mem = true ∧ ((load 16 []).sp - 1).toNat < (load 16 []).memWords ∧
    ((load 16 []).sp - 1).toNat + 1 = (load 16 []).memWords := by decide

/-- The hypotheses of a rule of an instruction that writes operand A with opcode `op`: a word with that opcode; a literal
operand A; a writable one whose operands fault, the address being the first out of range; a writable one whose operands
lie in memory, the address being the last. -/
def WritingHypothesesMet (op : BitVec 4) : Prop :=
  (∃ w, opField w = op) ∧ (∃ a : OperandClass, a.isLiteral = true) ∧
  ((OperandClass.ind .b).isLiteral = false ∧
    operandsFault (.ind .b) (.lit 0) ((load 16 []).setReg .b 16) = some ⟨.operandAddressOutOfRange, some 16⟩) ∧
  (OperandClass.ind .b).isLiteral = false ∧ OperandsInRange (.ind .b) (.lit 0) ((load 16 []).setReg .b 15)

theorem writingHypothesesMet (op : BitVec 4) : WritingHypothesesMet op :=
  ⟨⟨joinFields op 0 0, by revert op; decide⟩, ⟨.nextLit, rfl⟩, by decide⟩

theorem witness_SetRule : WritingHypothesesMet 0x1 := writingHypothesesMet _
theorem witness_AddRule : WritingHypothesesMet 0x2 := writingHypothesesMet _
theorem witness_SubRule : WritingHypothesesMet 0x3 := writingHypothesesMet _
theorem witness_MulRule : WritingHypothesesMet 0x4 := writingHypothesesMet _

/-- With a zero divisor and with another. -/
theorem witness_DivRule : WritingHypothesesMet 0x5 ∧
    (resolvedOperands (.ind .b) (.lit 0) ((load 16 []).setReg .b 15)).vB = 0 ∧
    (resolvedOperands (.ind .b) (.lit 1) ((load 16 []).setReg .b 15)).vB ≠ 0 :=
  ⟨writingHypothesesMet _, by decide, by decide⟩

/-- With a zero divisor and with another. -/
theorem witness_ModRule : WritingHypothesesMet 0x6 ∧
    (resolvedOperands (.ind .b) (.lit 0) ((load 16 []).setReg .b 15)).vB = 0 ∧
    (resolvedOperands (.ind .b) (.lit 1) ((load 16 []).setReg .b 15)).vB ≠ 0 :=
  ⟨writingHypothesesMet _, by decide, by decide⟩

theorem witness_ShlRule : WritingHypothesesMet 0x7 := writingHypothesesMet _
theorem witness_ShrRule : WritingHypothesesMet 0x8 := writingHypothesesMet _
theorem witness_AndRule : WritingHypothesesMet 0x9 := writingHypothesesMet _
theorem witness_BorRule : WritingHypothesesMet 0xa := writingHypothesesMet _
theorem witness_XorRule : WritingHypothesesMet 0xb := writingHypothesesMet _

/-- The hypotheses of a conditional's rule: a word with its opcode; operands that fault, at the first address out of range;
operands that lie in memory, at the last; a literal operand A among them. -/
def ConditionalHypothesesMet (op : BitVec 4) : Prop :=
  (∃ w, opField w = op) ∧
  operandsFault (.ind .b) (.lit 0) ((load 16 []).setReg .b 16) = some ⟨.operandAddressOutOfRange, some 16⟩ ∧
  OperandsInRange (.ind .b) (.lit 0) ((load 16 []).setReg .b 15) ∧ OperandsInRange (.lit 5) (.lit 5) (load 16 [])

theorem conditionalHypothesesMet (op : BitVec 4) : ConditionalHypothesesMet op :=
  ⟨⟨joinFields op 0 0, by revert op; decide⟩, by decide⟩

theorem witness_IfeRule : ConditionalHypothesesMet 0xc := conditionalHypothesesMet _
theorem witness_IfnRule : ConditionalHypothesesMet 0xd := conditionalHypothesesMet _
theorem witness_IfgRule : ConditionalHypothesesMet 0xe := conditionalHypothesesMet _
theorem witness_IfbRule : ConditionalHypothesesMet 0xf := conditionalHypothesesMet _

/-- An operand that faults; a new top cell at the first address out of range; one at the last address. -/
theorem witness_JsrRule :
    operandFault .nextLit (load 1 [0x7c10]).advance = some ⟨.extraWordOutOfRange, some 1⟩ ∧
    (OperandInRange (.reg .a) ((load 16 [0x0010]).setSp 17).advance ∧
      ((load 16 [0x0010]).setSp 17).memWords ≤
        ((afterOperand (.reg .a) ((load 16 [0x0010]).setSp 17).advance).sp - 1).toNat) ∧
    OperandInRange (.reg .a) (load 16 [0x0010]).advance ∧
    ((afterOperand (.reg .a) (load 16 [0x0010]).advance).sp - 1).toNat < (load 16 [0x0010]).memWords := by decide

theorem witness_HaltRule :
    operandFault .pop (load 16 [0x6000]).advance = some ⟨.operandAddressOutOfRange, some 16⟩ ∧
    OperandInRange .pop ((load 16 [0x6000]).setSp 15).advance := by decide

/-- Both ends of the undefined space. -/
theorem witness_UndefinedNonBasicRule :
    (opField 0x0020 = 0 ∧ 2 ≤ (aField 0x0020).toNat) ∧ (opField 0x03f0 = 0 ∧ 2 ≤ (aField 0x03f0).toNat) := by decide

/-! ### Frames -/

/-- The state the frames' witnesses start from: register B holds the address 15, SP is 8. -/
def frameState : State := ((load 16 [0x1234]).setReg .b 15).setSp 8

/-- The hypotheses of a frame about instruction `i` at `frameState`. -/
def FrameHypothesesMet (i : Instr) : Prop :=
  frameState.status = .running ∧ exec i frameState = .next (nextOr (exec i frameState) frameState) ∧
  (nextOr (exec i frameState) frameState).status ≠ .faulted

/-- A store to the last cell: it is no register, not SP, PC or O, and the cell below it is another. -/
theorem witness_FrameOfPlainWriters : FrameHypothesesMet (.set (.ind .b) .pop) ∧
    Instr.set (.ind .b) .pop ∈ plainWriters (.ind .b) .pop ∧
    operandTarget (.ind .b) frameState.advance = .mem 15 ∧ Target.mem 15 ≠ .mem 14 :=
  ⟨⟨rfl, eq_nextOr (by decide), by decide⟩, by decide, by decide, by decide⟩

theorem witness_FrameOfFlagWriters : FrameHypothesesMet (.add (.ind .b) .pop) ∧
    Instr.add (.ind .b) .pop ∈ flagWriters (.ind .b) .pop ∧
    operandTarget (.ind .b) frameState.advance = .mem 15 ∧ Target.mem 15 ≠ .mem 14 :=
  ⟨⟨rfl, eq_nextOr (by decide), by decide⟩, by decide, by decide, by decide⟩

theorem witness_FrameOfConditionals :
    FrameHypothesesMet (.ife .pop .push) ∧ Instr.ife .pop .push ∈ conditionals .pop .push :=
  ⟨⟨rfl, eq_nextOr (by decide), by decide⟩, by decide⟩

theorem witness_FrameOfJsr : FrameHypothesesMet (.jsr .pop) ∧ (9#16) ≠ spAfterOperand .pop frameState.sp - 1 :=
  ⟨⟨rfl, eq_nextOr (by decide), by decide⟩, by decide⟩

theorem witness_FrameOfHalt : FrameHypothesesMet (.halt .pop) := ⟨rfl, eq_nextOr (by decide), by decide⟩

/-! ### Rules of the whole machine -/

/-- Each of the four kinds of instruction, and O as destination. -/
theorem witness_OUnchangedUnlessDestination :
    (FrameHypothesesMet (.set (.ind .b) .pop) ∧ Instr.set (.ind .b) .pop ∈ plainWriters (.ind .b) .pop ∧
      OperandClass.ind .b ≠ .o) ∧
    (FrameHypothesesMet (.ife .pop .push) ∧ Instr.ife .pop .push ∈ conditionals .pop .push) ∧
    FrameHypothesesMet (.jsr .pop) ∧ FrameHypothesesMet (.halt .pop) ∧ OperandsInRange .o .pop frameState :=
  ⟨⟨witness_FrameOfPlainWriters.1, by decide, by decide⟩, witness_FrameOfConditionals, witness_FrameOfJsr.1,
    witness_FrameOfHalt, by decide⟩

theorem witness_OAsDestinationOfFlagWriters : OperandsInRange .o .pop frameState := by decide

/-- A step that changes a register, one that changes SP, one that changes a memory cell. -/
theorem witness_StateWrittenOnlyWhereNamed :
    (FrameHypothesesMet (.set (.reg .a) (.lit 1)) ∧
      (nextOr (exec (.set (.reg .a) (.lit 1)) frameState) frameState).reg .a ≠ frameState.reg .a) ∧
    (FrameHypothesesMet (.ife .pop .pop) ∧
      (nextOr (exec (.ife .pop .pop) frameState) frameState).sp ≠ frameState.sp) ∧
    FrameHypothesesMet (.set (.ind .b) (.lit 1)) ∧
      (nextOr (exec (.set (.ind .b) (.lit 1)) frameState) frameState).readMem 15 ≠ frameState.readMem 15 :=
  ⟨⟨⟨rfl, eq_nextOr (by decide), by decide⟩, by decide⟩, ⟨⟨rfl, eq_nextOr (by decide), by decide⟩, by decide⟩,
    ⟨rfl, eq_nextOr (by decide), by decide⟩, by decide⟩

/-- The state before a false conditional (V84). -/
def falseConditional : State := ((load 65536 [0x040c, 0x7d01, 0x1000, 0x1234]).setReg .a 1).setReg .b 2

theorem witness_SkipSetOnlyByConditionals :
    step falseConditional = .next (nextOr (step falseConditional) falseConditional) ∧
    (nextOr (step falseConditional) falseConditional).status ≠ .faulted ∧
    (nextOr (step falseConditional) falseConditional).skip = true ∧
    ConditionFalse (.ife (.reg .a) (.reg .b)) (.reg .a) (.reg .b) 1 2 :=
  ⟨eq_nextOr (by decide), by decide, by decide, by decide⟩

/-! ### Steps -/

/-- With `skip` clear and with `skip` set, at the last cell. -/
theorem witness_StepRunsDecodedInstruction :
    ((load 1 [0x8401]).status = .running ∧ (load 1 [0x8401]).pc.toNat < (load 1 [0x8401]).memWords ∧
      (Instr.set (.reg .a) (.lit 1)).wellFormed = true ∧
      (load 1 [0x8401]).readMem (load 1 [0x8401]).pc = encodeWord (.set (.reg .a) (.lit 1)) ∧
      (load 1 [0x8401]).skip = false) ∧
    (((load 1 [0x8401]).setSkip true).status = .running ∧
      ((load 1 [0x8401]).setSkip true).readMem 0 = encodeWord (.set (.reg .a) (.lit 1)) ∧
      ((load 1 [0x8401]).setSkip true).skip = true) := by decide

/-- PC at the first address out of range; a step from it that sets a record; a full memory, where a step sets another
record. -/
theorem witness_FetchBeyondMemoryFaults :
    (((load 16 []).setPc 16).status = .running ∧ ((load 16 []).setPc 16).memWords ≤ ((load 16 []).setPc 16).pc.toNat) ∧
    (((load 16 []).setPc 16).fault = none ∧ (∃ t r, step ((load 16 []).setPc 16) = .next t ∧ t.fault = some r ∧
      r.code = .fetchOutOfRange)) ∧
    ((load 65536 [0x0020]).memWords = 65536 ∧ ∃ t r, step (load 65536 [0x0020]) = .next t ∧ t.fault = some r) :=
  ⟨by decide, ⟨rfl, _, _, rfl, rfl, rfl⟩, rfl, _, _, rfl, rfl⟩

/-- The three clauses: an undefined word; a two-word instruction that fits exactly; one whose extra word is the first
word out of range. -/
theorem witness_SkippedInstructionConsumed :
    (let s := (load 1 [0x0020]).setSkip true
     let i := Instr.undefinedNonBasic 0x02 0x00
     s.status = .running ∧ s.skip = true ∧ s.pc.toNat < s.memWords ∧ i.wellFormed = true ∧
      s.readMem s.pc = encodeWord i ∧ i.length = none) ∧
    (let s := (load 2 [0x7c01, 0x0030]).setSkip true
     let i := Instr.set (.reg .a) .nextLit
     s.status = .running ∧ s.skip = true ∧ s.pc.toNat < s.memWords ∧ i.wellFormed = true ∧
      s.readMem s.pc = encodeWord i ∧ i.length = some 2 ∧ (s.pc + BitVec.ofNat 16 1).toNat < s.memWords) ∧
    (let s := (load 1 [0x7c01]).setSkip true
     let i := Instr.set (.reg .a) .nextLit
     s.status = .running ∧ s.skip = true ∧ s.pc.toNat < s.memWords ∧ i.wellFormed = true ∧
      s.readMem s.pc = encodeWord i ∧ i.length = some 2 ∧ s.memWords ≤ (s.pc + BitVec.ofNat 16 1).toNat) := by decide

/-- HALT's operand in range; a step to `halted`; a step to `faulted`; states that are not running. -/
theorem witness_StatusChangesAsStated :
    OperandInRange .pop ((load 16 [0x6000]).setSp 15).advance ∧
    (∃ t, step (load 16 [0x0000]) = .next t ∧ t.status = .halted) ∧
    (∃ t, step (load 16 [0x0020]) = .next t ∧ t.status = .faulted) ∧
    ((load 16 []).setStatus .halted).status ≠ .running ∧ ((load 16 []).setStatus .faulted).status ≠ .running :=
  ⟨by decide, ⟨_, rfl, rfl⟩, ⟨_, rfl, rfl⟩, by decide, by decide⟩

theorem witness_RunHasNoOtherEnding : (load 16 []).status = .running := rfl

theorem witness_FatalErrorEndsRun : ∃ t, step (load 16 [0x0020]) = .next t ∧ t.status = .faulted := ⟨_, rfl, rfl⟩

/-- The least and the greatest capacity. -/
theorem witness_ResetMeetsInvariant : legalMemWords 1 = true ∧ legalMemWords 65536 = true := by decide

/-- A state with memory listed that meets the invariant, at the least capacity, and a step from it. -/
theorem witness_StepKeepsInvariant : (load 1 [0x8401]).Inv ∧ ∃ t, step (load 1 [0x8401]) = .next t :=
  ⟨⟨by decide, by decide, by decide, by decide, by decide, (by intro r h; cases h), by decide⟩, _, rfl⟩

/-- Each of the codes a step can raise: 1, 2, 3, 4 and 5. -/
theorem witness_FaultRecordNamesCause :
    (∃ t r, step ((load 16 []).setPc 16) = .next t ∧ t.status = .faulted ∧ t.fault = some r ∧
      r.code = .fetchOutOfRange) ∧
    (∃ t r, step (load 1 [0x7c01]) = .next t ∧ t.status = .faulted ∧ t.fault = some r ∧
      r.code = .extraWordOutOfRange) ∧
    (∃ t r, step (load 16 [0x6001]) = .next t ∧ t.status = .faulted ∧ t.fault = some r ∧
      r.code = .operandAddressOutOfRange) ∧
    (∃ t r, step (load 65536 [0x0251]) = .next t ∧ t.status = .faulted ∧ t.fault = some r ∧
      r.code = .writeToLiteral) ∧
    ∃ t r, step (load 65536 [0x0020]) = .next t ∧ t.status = .faulted ∧ t.fault = some r ∧
      r.code = .undefinedNonBasic :=
  ⟨⟨_, _, rfl, rfl, rfl, rfl⟩, ⟨_, _, rfl, rfl, rfl, rfl⟩, ⟨_, _, rfl, rfl, rfl, rfl⟩, ⟨_, _, rfl, rfl, rfl, rfl⟩,
    _, _, rfl, rfl, rfl, rfl⟩

/-- The cause at both ends of the opcodes (SET, XOR) and of the literal classes (0x1f, 0x3f), and the fault. -/
theorem witness_WriteToLiteralRaisedExactly :
    ((load 16 [0x01f1]).status = .running ∧ (load 16 [0x01f1]).pc.toNat < (load 16 [0x01f1]).memWords ∧
      (load 16 [0x01f1]).readMem 0 = 0x01f1 ∧ (load 16 [0x01f1]).skip = false ∧ (opField 0x01f1).toNat = 0x1 ∧
      (aField 0x01f1).toNat = 0x1f) ∧
    ((load 16 [0x03fb]).readMem 0 = 0x03fb ∧ (opField 0x03fb).toNat = 0xb ∧ (aField 0x03fb).toNat = 0x3f) ∧
    ∃ t r, step (load 16 [0x01f1]) = .next t ∧ t.status = .faulted ∧ t.fault = some r ∧ r.code = .writeToLiteral :=
  ⟨by decide, by decide, _, _, rfl, rfl, rfl, rfl⟩

/-- Both ends of the undefined space, and the fault. -/
theorem witness_UndefinedNonBasicRaisedExactly :
    ((load 16 [0x0020]).status = .running ∧ (load 16 [0x0020]).pc.toNat < (load 16 [0x0020]).memWords ∧
      (load 16 [0x0020]).readMem 0 = 0x0020 ∧ opField 0x0020 = 0 ∧ 2 ≤ (aField 0x0020).toNat) ∧
    ((load 16 [0x03f0]).readMem 0 = 0x03f0 ∧ opField 0x03f0 = 0 ∧ 2 ≤ (aField 0x03f0).toNat) ∧
    ∃ t r, step (load 16 [0x0020]) = .next t ∧ t.status = .faulted ∧ t.fault = some r ∧ r.code = .undefinedNonBasic :=
  ⟨by decide, by decide, _, _, rfl, rfl, rfl, rfl⟩

/-! ### Runs -/

/-- The hypotheses of the statement about stores, for instruction `i` at state `s`, with the address and word stored. -/
def StoreHypothesesMet (i : Instr) (s : State) (addr v : Word) : Prop :=
  Memory.wf s.mem = true ∧ s.status = .running ∧ s.skip = false ∧ s.pc.toNat < s.memWords ∧ i.wellFormed = true ∧
  s.readMem s.pc = encodeWord i ∧ storedWord i s = some (addr, v) ∧ step s = .next (nextOr (step s) s) ∧
  (nextOr (step s) s).status ≠ .faulted

theorem storeHypothesesMet {i : Instr} {s : State} {addr v : Word} (hs : s.status = .running) (hk : s.skip = false)
    (hd : (Memory.wf s.mem && decide (s.pc.toNat < s.memWords) && i.wellFormed && s.readMem s.pc == encodeWord i &&
      storedWord i s == some (addr, v) && check (step s) (·.status != .faulted)) = true) :
    StoreHypothesesMet i s addr v := by
  simp only [Bool.and_eq_true, decide_eq_true_eq, beq_iff_eq] at hd
  obtain ⟨⟨⟨⟨⟨h1, h2⟩, h3⟩, h4⟩, h5⟩, h6⟩ := hd
  have h7 : step s = .next (nextOr (step s) s) := eq_nextOr (by
    cases h : step s with
    | next t => rfl
    | fault r | refused r => rw [h] at h6; cases h6)
  rw [h7] at h6
  exact ⟨h1, hs, hk, h2, h3, h4, h5, h7, by simpa [check] using h6⟩

/-- A SET over the first word of the next instruction, in the last cell; a JSR whose pushed word is where it jumps; an ADD
over the extra word of the next instruction's operand A (0x7801, `SET A, [next word]`, in range) and a XOR over operand
B's, after operand A's (0x7d01, in range). -/
theorem witness_StoreSeenByNextFetch :
    (let s := load 3 [0x95e1, 0x0002]
     StoreHypothesesMet (.set .indNext (.lit 5)) s 2 5 ∧ (2 : Word) = (nextOr (step s) s).pc) ∧
    (let s := (load 16 [0xa010]).setSp 9
     StoreHypothesesMet (.jsr (.lit 8)) s 8 1 ∧ (8 : Word) = (nextOr (step s) s).pc) ∧
    (let s := load 16 [0x89e2, 0x0003, 0x7801, 0x0004]
     StoreHypothesesMet (.add .indNext (.lit 2)) s 3 6 ∧ (3 : Word) = (nextOr (step s) s).advance.pc ∧
      (6 : Word).toNat < (nextOr (step s) s).advance.memWords) ∧
    (let s := load 16 [0x89eb, 0x0004, 0x7d01, 0x0008, 0x0004]
     let t := nextOr (step s) s
     StoreHypothesesMet (.xor .indNext (.lit 2)) s 4 6 ∧
      (4 : Word) = (afterOperand (.indexed .a) t.advance).pc ∧
      ((6 : Word) + (afterOperand (.indexed .a) t.advance).reg .a).toNat <
        (afterOperand (.indexed .a) t.advance).memWords) :=
  ⟨⟨storeHypothesesMet rfl rfl (by decide), by decide⟩, ⟨storeHypothesesMet rfl rfl (by decide), by decide⟩,
    ⟨storeHypothesesMet rfl rfl (by decide), by decide, by decide⟩,
    storeHypothesesMet rfl rfl (by decide), by decide, by decide⟩

/-- V84 before a three-word instruction. -/
theorem witness_FalseConditionalSkipsOne :
    let s := falseConditional
    let t := nextOr (step s) s
    let u := nextOr (step t) t
    let i := Instr.set (.indexed .a) .nextLit
    s.status = .running ∧ s.skip = false ∧ s.pc.toNat < s.memWords ∧
    decode (s.readMem s.pc) ∈ conditionals (.reg .a) (.reg .b) ∧ step s = .next t ∧ t.status = .running ∧
    t.skip = true ∧ t.pc.toNat < t.memWords ∧ i.wellFormed = true ∧ t.readMem t.pc = encodeWord i ∧
    i.length = some 3 ∧ step t = .next u ∧ u.status = .running :=
  ⟨rfl, rfl, by decide, by decide, eq_nextOr (by decide), by decide, by decide, by decide, by decide, by decide,
    by decide, eq_nextOr (by decide), by decide⟩

/-- `JSR 2` at address 0, and `SET PC, POP` at address 2. -/
theorem witness_CallReturnsToNextInstruction :
    let s := load 16 [0x8810, 0x0000, 0x61c1]
    let t := nextOr (step s) s
    Memory.wf s.mem = true ∧ s.status = .running ∧ s.skip = false ∧ s.pc.toNat < s.memWords ∧
    s.readMem s.pc = encodeWord (.jsr (.lit 2)) ∧ step s = .next t ∧ t.status = .running ∧
    t.pc.toNat < t.memWords ∧ t.readMem t.pc = encodeWord (.set .pc .pop) ∧ (0#16) ≠ t.sp :=
  ⟨by decide, rfl, rfl, by decide, by decide, eq_nextOr (by decide), by decide, by decide, by decide, by decide⟩

/-- The ends of both ranges of literals, and a mnemonic that writes operand A. -/
theorem witness_LiteralsAssembleAsStated :
    ((0 : Int) ≤ 0 ∧ (0 : Int) ≤ 31) ∧ ((0 : Int) ≤ 31 ∧ (31 : Int) ≤ 31) ∧ (-1 : Int) < 0 ∧ (31 : Int) < 32 ∧
    Asm.Mnemonic.set ∉ [Asm.Mnemonic.ife, .ifn, .ifg, .ifb] := by decide

end Sys2Proof.Tests
end

section
/-! PROOFS of the family 10_state.md: the registers at reset, and which instructions write O. -/

namespace Sys2Proof.Machine

/-! ## Reset -/

@[simp] theorem State.resetWith_reg (memWords : Nat) (mem : Memory) (r : Reg) :
    (State.resetWith memWords mem).reg r = 0 := by
  cases r <;> rfl

/-- Settles O8: both states are `State.resetWith` of some memory. -/
theorem registersResetToZero : Obligations.RegistersResetToZero :=
  ⟨fun memWords initMem r => State.resetWith_reg memWords (Memory.ofCells memWords initMem) r,
    fun r => State.resetWith_reg Config.referenceMemWords [] r⟩

/-! ## Which instructions write O -/

/-- Only class 0x1d names O (40_execution_cycle.md R147). -/
theorem operandTarget_eq_o_iff (c : OperandClass) (s : State) : operandTarget c s = .o ↔ c = .o := by
  cases c <;> simp [operandTarget]

theorem mem_plainWriters_operandA {i : Instr} {a b a' b' : OperandClass} (h : i ∈ plainWriters a b)
    (h' : i ∈ plainWriters a' b') : a = a' := by
  simp only [plainWriters, List.mem_cons, List.not_mem_nil, or_false] at h
  obtain rfl | rfl | rfl | rfl | rfl := h <;> simp_all [plainWriters]

theorem not_mem_flagWriters_of_mem_plainWriters {i : Instr} {a b : OperandClass} (h : i ∈ plainWriters a b)
    (a' b' : OperandClass) : i ∉ flagWriters a' b' := by
  simp only [plainWriters, List.mem_cons, List.not_mem_nil, or_false] at h
  obtain rfl | rfl | rfl | rfl | rfl := h <;> simp [flagWriters]

theorem not_mem_writers_of_mem_conditionals {i : Instr} {a b : OperandClass} (h : i ∈ conditionals a b)
    (a' b' : OperandClass) : i ∉ plainWriters a' b' ∧ i ∉ flagWriters a' b' := by
  simp only [conditionals, List.mem_cons, List.not_mem_nil, or_false] at h
  obtain rfl | rfl | rfl | rfl := h <;> simp [plainWriters, flagWriters]

/-- O changes only as a flag writer's side effect or as a plain writer's destination (10_state.md R39, R41). -/
theorem exec_o_unchanged {i : Instr} {s t : State} (h : exec i s = .next t) (hn : t.status ≠ .faulted)
    (hplain : ∀ b, i ∉ plainWriters .o b) (hflag : ∀ a b, i ∉ flagWriters a b) : t.o = s.o := by
  cases exec_cases h with
  | fault f hf ht => exact absurd (by rw [ht]; rfl) hn
  | plain a b r hi hl hr ht =>
    have htarget : operandTarget a s.advance ≠ .o := fun e => by
      obtain rfl := (operandTarget_eq_o_iff a s.advance).mp e
      exact hplain b hi
    rw [ht, resolvedOperands_tA, Target.write_o _ htarget, resolvedOperands_o]
  | resultThenO a b r o hi | oThenResult a b r o hi => exact absurd hi (hflag a b)
  | conditional a b v hi hr hv ht => simp [ht]
  | jsr b hi hr hs ht => simp [ht]
  | halt b hi hr ht => simp [ht]

/-! ## O as the destination -/

/-- MOD's result as a machine word operation (41_move_arith.md R185). -/
theorem modResult_eq (vA vB : Word) : modResult vA vB = if vB = 0 then 0 else vA % vB := by
  unfold modResult wrap16
  split
  · rfl
  · rw [← BitVec.toNat_umod, BitVec.ofNat_toNat, BitVec.setWidth_eq]

/-- Operand A of class 0x1d reads O, which no operand's side effect touches. -/
theorem resolvedOperands_o_vA (b : OperandClass) (s : State) : (resolvedOperands .o b s).vA = s.o :=
  resolvedOperands_o .o b s

/-- Settles O40: `exec_o_unchanged` for the instructions named, and the in-range effect of each plain writer with its
target O. -/
theorem oUnchangedUnlessDestination : Obligations.OUnchangedUnlessDestination := by
  unfold Obligations.OUnchangedUnlessDestination
  refine ⟨fun a b i s t hi _ h hn => ?_, fun b s hr => ?_⟩
  · obtain ⟨hplain, ha⟩ | hcond | rfl | rfl := hi
    · exact exec_o_unchanged h hn (fun _ ho => ha (mem_plainWriters_operandA hplain ho))
        (not_mem_flagWriters_of_mem_plainWriters hplain)
    · exact exec_o_unchanged h hn (fun b' => (not_mem_writers_of_mem_conditionals hcond .o b').1)
        (fun a' b' => (not_mem_writers_of_mem_conditionals hcond a' b').2)
    · exact exec_o_unchanged h hn (by simp [plainWriters]) (by simp [flagWriters])
    · exact exec_o_unchanged h hn (by simp [plainWriters]) (by simp [flagWriters])
  · have hwriting : ∀ (i : Instr) (effect : Operands → State),
        writing i .o b s effect = .next (effect (resolvedOperands .o b s)) :=
      fun i effect => writing_of_inRange i effect rfl hr
    simp only [← resolvedOperands_o_vA b s, ← modResult_eq]
    exact ⟨hwriting _ _, hwriting _ _, hwriting _ _, hwriting _ _, hwriting _ _⟩

end Sys2Proof.Machine
end

section
/-! PROOFS of the family 20_memory.md: reads after the load and at power-on. -/

namespace Sys2Proof.Machine

/-! ## Writing one word -/

/-- A write changes the memory only (20_memory.md R63). -/
theorem State.writeMem_frame (s : State) (addr v : Word) : { s.writeMem addr v with mem := s.mem } = s := rfl

/-! ## Writing consecutive words -/

theorem State.storeWords_cons {s : State} {addr : Word} (h : addr.toNat < s.memWords) (w : Word) (ws : List Word) :
    s.storeWords addr (w :: ws) = (s.writeMem addr w).storeWords (addr + 1) ws :=
  congrArg (fun t => State.storeWords t (addr + 1) ws) (if_pos h)

/-- The load's writes change the memory only. -/
theorem State.storeWords_frame (s : State) (addr : Word) (ws : List Word) :
    { s.storeWords addr ws with mem := s.mem } = s := by
  induction ws generalizing s addr with
  | nil => rfl
  | cons w ws ih =>
    unfold State.storeWords
    split
    · exact congrArg (fun u : State => { u with mem := s.mem }) (ih (s.writeMem addr w) (addr + 1))
    · exact ih s (addr + 1)

/-- The address `k + 1` words on is `k` words on from the next one. -/
theorem wordOffset_succ (addr : Word) (k : Nat) : addr + BitVec.ofNat 16 (k + 1) = addr + 1 + BitVec.ofNat 16 k := by
  rw [Nat.add_comm, BitVec.ofNat_add, ← BitVec.add_assoc]
  rfl

/-- An address does not come up again within the 65535 words that follow it. -/
theorem wordOffset_ne_self {k : Nat} (hpos : 0 < k) (hlt : k < 65536) (addr : Word) :
    addr + BitVec.ofNat 16 k ≠ addr := by
  intro h
  have hzero : BitVec.ofNat 16 k = 0#16 := by simpa using h
  have : k % 65536 = 0 := by simpa using congrArg BitVec.toNat hzero
  omega

theorem State.readMem_storeWords_other (s : State) {addr other : Word} {ws : List Word}
    (h : ∀ k < ws.length, addr + BitVec.ofNat 16 k ≠ other) :
    (s.storeWords addr ws).readMem other = s.readMem other := by
  induction ws generalizing s addr with
  | nil => rfl
  | cons w ws ih =>
    have hhead : addr ≠ other := by simpa using h 0 (by simp)
    have htail : ∀ k < ws.length, addr + 1 + BitVec.ofNat 16 k ≠ other := fun k hk =>
      wordOffset_succ addr k ▸ h (k + 1) (by simpa using hk)
    unfold State.storeWords
    rw [ih _ htail]
    split
    · exact State.readMem_writeMem_other s hhead w
    · rfl

/-- Word `k` is read back `k` words on: the later words go to other addresses, since the addresses do not wrap onto
themselves. -/
theorem State.readMem_storeWords {s : State} (hm : Memory.wf s.mem = true) {addr : Word} {ws : List Word}
    (hlen : ws.length ≤ 65536) (hin : ∀ k < ws.length, (addr + BitVec.ofNat 16 k).toNat < s.memWords)
    (k : Nat) (hk : k < ws.length) : (s.storeWords addr ws).readMem (addr + BitVec.ofNat 16 k) = ws[k] := by
  induction ws generalizing s addr k with
  | nil => exact absurd hk (Nat.not_lt_zero k)
  | cons w ws ih =>
    rw [List.length_cons] at hlen hk
    have hhead : addr.toNat < s.memWords := by simpa using hin 0 (by simp)
    rw [State.storeWords_cons hhead]
    cases k with
    | zero =>
      have hother : ∀ j < ws.length, addr + 1 + BitVec.ofNat 16 j ≠ addr := fun j hj =>
        wordOffset_succ addr j ▸ wordOffset_ne_self (Nat.succ_pos j) (by omega) addr
      simpa using (State.readMem_storeWords_other _ hother).trans (State.readMem_writeMem_same hm addr w)
    | succ k =>
      have hin' : ∀ j < ws.length, (addr + 1 + BitVec.ofNat 16 j).toNat < s.memWords := fun j hj =>
        wordOffset_succ addr j ▸ hin (j + 1) (by simpa using hj)
      rw [wordOffset_succ]
      exact ih (s := s.writeMem addr w) (Memory.wf_set hm _ _) (by omega) hin' k (by omega)

/-! ## The load -/

theorem State.load_of_le {s : State} {image : List Word} (h : image.length ≤ s.memWords) :
    s.load image = some (s.storeWords 0 image) :=
  if_pos h

theorem State.readMem_loaded {s : State} (hm : Memory.wf s.mem = true) (hcap : s.memWords ≤ 65536) {image : List Word}
    (hlen : image.length ≤ s.memWords) (k : Nat) (hk : k < image.length) :
    (s.storeWords 0 image).readMem (BitVec.ofNat 16 k) = image[k] := by
  have hin : ∀ j < image.length, (0 + BitVec.ofNat 16 j : Word).toNat < s.memWords := fun j hj => by
    simpa using Nat.lt_of_le_of_lt (Nat.mod_le j 65536) (Nat.lt_of_lt_of_le hj hlen)
  simpa using State.readMem_storeWords hm (Nat.le_trans hlen hcap) hin k hk

theorem State.readMem_loaded_beyond (s : State) {image : List Word} {addr : Word} (h : image.length ≤ addr.toNat) :
    (s.storeWords 0 image).readMem addr = s.readMem addr := by
  refine State.readMem_storeWords_other s fun k hk e => ?_
  have htoNat : k % 65536 = addr.toNat := by simpa using congrArg BitVec.toNat e
  have := Nat.mod_le k 65536
  omega

/-! ## Power-on -/

theorem Memory.get_ofCells_of_lookup {memWords addr : Nat} {cells : List Cell} {v : Word} (h : addr < memWords)
    (hl : List.lookup addr cells = some v) : Memory.get (Memory.ofCells memWords cells) addr = v := by
  induction cells with
  | nil => simp at hl
  | cons c cells ih =>
    obtain ⟨k, w⟩ := c
    rw [List.lookup_cons] at hl
    unfold Memory.ofCells
    by_cases hk : addr = k
    · obtain rfl : w = v := by simpa [hk] using hl
      rw [← hk, if_pos h]
      exact Memory.get_set_same (Memory.wf_ofCells memWords cells) addr w
    · rw [beq_false_of_ne hk] at hl
      have hrest := ih hl
      split
      · rw [Memory.get_set_other _ (Ne.symm hk), hrest]
      · exact hrest

theorem State.readMem_powerOn {memWords : Nat} {initMem : List Cell} {addr v : Word} (h : addr.toNat < memWords)
    (hl : List.lookup addr.toNat initMem = some v) : (State.powerOn memWords initMem).readMem addr = v :=
  Memory.get_ofCells_of_lookup h hl

/-- Settles O10: one read-after-write or frame lemma for each clause, the load being a row of writes. -/
theorem memoryReadsLastWritten : Obligations.MemoryReadsLastWritten := by
  refine ⟨fun s hm addr v => State.readMem_writeMem_same hm addr v,
    fun s addr other v hne => State.readMem_writeMem_other s hne v, State.writeMem_frame,
    fun s image hm hcap hlen => ?load, fun memWords initMem addr v h hl => State.readMem_powerOn h hl⟩
  case load =>
    exact ⟨s.storeWords 0 image, State.load_of_le hlen, State.storeWords_frame s 0 image,
      State.readMem_loaded hm hcap hlen, fun addr => State.readMem_loaded_beyond s⟩

end Sys2Proof.Machine
end

section
/-! PROOFS of the family 30_encoding.md: the instruction word's fields, the operand codes, lengths and literals. -/

namespace Sys2Proof

/-! ## The instruction word -/

/-- The three fields do not overlap, so joining them is a sum (30_encoding.md R91). -/
theorem joinFields_toNat (op : BitVec 4) (a b : BitVec 6) :
    (joinFields op a b).toNat = b.toNat * 1024 + a.toNat * 16 + op.toNat := by
  have hop : op.toNat < 2 ^ 4 := op.isLt
  have ha : a.toNat < 2 ^ 6 := a.isLt
  have hb : b.toNat < 2 ^ 6 := b.isLt
  have hbits : (joinFields op a b).toNat = (b.toNat <<< 6 ||| a.toNat) <<< 4 ||| op.toNat := by
    have hb10 : b.toNat <<< 10 % 2 ^ 16 = b.toNat <<< 10 := Nat.mod_eq_of_lt (by rw [Nat.shiftLeft_eq]; omega)
    have ha4 : a.toNat <<< 4 % 2 ^ 16 = a.toNat <<< 4 := Nat.mod_eq_of_lt (by rw [Nat.shiftLeft_eq]; omega)
    simp only [joinFields, BitVec.toNat_or, BitVec.toNat_shiftLeft,
      BitVec.toNat_setWidth_of_le (show 4 ≤ 16 by decide), BitVec.toNat_setWidth_of_le (show 6 ≤ 16 by decide),
      hb10, ha4, Nat.shiftLeft_or_distrib, ← Nat.shiftLeft_add]
  rw [hbits, ← Nat.shiftLeft_add_eq_or_of_lt ha, ← Nat.shiftLeft_add_eq_or_of_lt hop, Nat.shiftLeft_eq,
    Nat.shiftLeft_eq]
  omega

@[simp] theorem joinFields_fields (w : Word) : joinFields (opField w) (aField w) (bField w) = w := by
  apply BitVec.eq_of_toNat_eq
  rw [joinFields_toNat, opField_toNat, aField_toNat, bField_toNat]
  omega

/-- Settles O2: the fields and the join as arithmetic, from which both inverses follow. -/
theorem instructionWordFields : Obligations.InstructionWordFields :=
  ⟨fun w => ⟨opField_toNat w, aField_toNat w, bField_toNat w⟩, joinFields_toNat, joinFields_fields,
    fun op a b => ⟨opField_joinFields op a b, aField_joinFields op a b, bField_joinFields op a b⟩⟩

/-! ## Operand codes -/

theorem Reg.index_ofIndex (n : BitVec 3) : (Reg.ofIndex n).index = n.toNat := by
  revert n; decide

/-- The register index is `c & 0x7` (30_encoding.md R95). -/
theorem Reg.index_ofIndex_setWidth (c : BitVec 6) : (Reg.ofIndex (c.setWidth 3)).index = c.toNat % 8 := by
  rw [Reg.index_ofIndex, BitVec.toNat_setWidth]

theorem OperandClass.ofCode_reg {c : BitVec 6} (h : c.toNat < 0x08) :
    OperandClass.ofCode c = .reg (Reg.ofIndex (c.setWidth 3)) :=
  if_pos h

theorem OperandClass.ofCode_ind {c : BitVec 6} (hle : 0x08 ≤ c.toNat) (hlt : c.toNat < 0x10) :
    OperandClass.ofCode c = .ind (Reg.ofIndex (c.setWidth 3)) := by
  rw [OperandClass.ofCode, if_neg (by omega), if_pos hlt]

theorem OperandClass.ofCode_indexed {c : BitVec 6} (hle : 0x10 ≤ c.toNat) (hlt : c.toNat < 0x18) :
    OperandClass.ofCode c = .indexed (Reg.ofIndex (c.setWidth 3)) := by
  rw [OperandClass.ofCode, if_neg (by omega), if_neg (by omega), if_pos hlt]

theorem OperandClass.ofCode_lit {c : BitVec 6} (h : 0x20 ≤ c.toNat) :
    OperandClass.ofCode c = .lit (c.setWidth 5) := by
  -- None of the eleven conditions that come before the inline literals holds.
  rw [OperandClass.ofCode]
  iterate 11 rw [if_neg (by omega)]

/-- The inline literal of class `c` is `c - 0x20`, zero-extended (30_encoding.md section 2). -/
theorem inlineLiteral_toWord {c : BitVec 6} (h : 0x20 ≤ c.toNat) :
    (c.setWidth 5).setWidth 16 = BitVec.ofNat 16 (c.toNat - 0x20) := by
  have := c.isLt
  apply BitVec.eq_of_toNat_eq
  simp only [BitVec.toNat_setWidth, BitVec.toNat_ofNat]
  omega

/-- `nw(c)` as a table over the 64 codes (30_encoding.md R97). -/
theorem OperandClass.extraWords_ofCode (c : BitVec 6) : (OperandClass.ofCode c).extraWords =
    if (0x10 ≤ c.toNat ∧ c.toNat < 0x18) ∨ c.toNat = 0x1e ∨ c.toNat = 0x1f then 1 else 0 := by
  revert c; decide

/-- Settles O3: the class of each range of codes, the register or literal it names, and `nw`. -/
theorem operandCodesReadAsTabled : Obligations.OperandCodesReadAsTabled := fun c _ =>
  ⟨fun h => ⟨_, OperandClass.ofCode_reg h, Reg.index_ofIndex_setWidth c⟩,
    fun hle hlt => ⟨_, OperandClass.ofCode_ind hle hlt, Reg.index_ofIndex_setWidth c⟩,
    fun hle hlt => ⟨_, OperandClass.ofCode_indexed hle hlt, Reg.index_ofIndex_setWidth c⟩,
    fun h => ⟨_, OperandClass.ofCode_lit h, congrArg Machine.Target.lit (inlineLiteral_toWord h)⟩,
    OperandClass.extraWords_ofCode c⟩

/-! ## The length of a form -/

theorem Instr.length_of_basic {i : Instr} {op : BitVec 4} {a b : OperandClass} (h : i.form = .basic op a b) :
    i.length = some (1 + a.extraWords + b.extraWords) := by
  simp [Instr.length, Instr.extraWords, h, Nat.add_assoc]

theorem Instr.length_of_nonBasic {i : Instr} {n : BitVec 6} {b : OperandClass} (h : i.form = .nonBasic n b) :
    i.length = some (1 + b.extraWords) := by
  simp [Instr.length, Instr.extraWords, h]

theorem Instr.length_of_undefined {i : Instr} {n b : BitVec 6} (h : i.form = .undefined n b) : i.length = none := by
  simp [Instr.length, Instr.extraWords, h]

/-! ## The form of a decoded word -/

theorem decode_form_basic {w : Word} (h : opField w ≠ 0) :
    (decode w).form = .basic (opField w) (.ofCode (aField w)) (.ofCode (bField w)) :=
  (decode_form w).trans (if_neg h)

/-- HALT and JSR are the non-basic opcodes below 2 (30_encoding.md R103). -/
theorem nonBasicOpcode_defined_iff (n : BitVec 6) : (n = 0x00#6 ∨ n = 0x01#6) ↔ n.toNat < 2 := by
  simp only [← BitVec.toNat_inj, BitVec.toNat_ofNat]
  omega

theorem decode_form_nonBasic {w : Word} (hop : opField w = 0) (ha : (aField w).toNat < 2) :
    (decode w).form = .nonBasic (aField w) (.ofCode (bField w)) :=
  (decode_form w).trans ((if_pos hop).trans (if_pos ((nonBasicOpcode_defined_iff _).mpr ha)))

theorem decode_form_undefined {w : Word} (hop : opField w = 0) (ha : 2 ≤ (aField w).toNat) :
    (decode w).form = .undefined (aField w) (bField w) := by
  have hn : ¬ (aField w = 0x00#6 ∨ aField w = 0x01#6) := by
    rw [nonBasicOpcode_defined_iff]
    omega
  exact (decode_form w).trans ((if_pos hop).trans (if_neg hn))

/-- Settles O6: the fields give the form, the form the length, and each operand adds at most one word. -/
theorem lengthFromFirstWord : Obligations.LengthFromFirstWord := by
  intro w a b
  have ha : a ≤ 1 := OperandClass.extraWords_le_one _
  have hb : b ≤ 1 := OperandClass.extraWords_le_one _
  exact ⟨fun hop => ⟨Instr.length_of_basic (decode_form_basic hop), by omega⟩,
    fun hop h => ⟨Instr.length_of_nonBasic (decode_form_nonBasic hop h), by omega⟩,
    fun hop h => Instr.length_of_undefined (decode_form_undefined hop h)⟩

end Sys2Proof

namespace Sys2Proof.Asm

/-! ## Literals in assembly lines -/

theorem literalWord_toNat (n : Int) : ((literalWord n).toNat : Int) = n % 65536 := by
  rw [literalWord, BitVec.toNat_ofInt]
  omega

theorem Operand.encode_smallLiteral {n : Int} (h : 0 ≤ n ∧ n ≤ 31) :
    (Operand.literal n).encode = (.lit (BitVec.ofInt 5 n), []) :=
  if_pos h

theorem Operand.encode_largeLiteral {n : Int} (h : ¬ (0 ≤ n ∧ n ≤ 31)) :
    (Operand.literal n).encode = (.nextLit, [literalWord n]) :=
  if_neg h

theorem smallLiteral_toNat {n : Int} (h : 0 ≤ n ∧ n ≤ 31) : ((BitVec.ofInt 5 n).toNat : Int) = n := by
  rw [BitVec.toNat_ofInt]
  omega

theorem litCode_toNat (k : BitVec 5) : (OperandClass.lit k).code.toNat = 0x20 + k.toNat := by
  have := k.isLt
  rw [OperandClass.code, BitVec.toNat_ofNat]
  omega

/-- Either class of a literal is read-only (30_encoding.md R100). -/
theorem Operand.encode_literal_isLiteral (n : Int) : (Operand.literal n).encode.1.isLiteral = true := by
  by_cases h : 0 ≤ n ∧ n ≤ 31
  · rw [Operand.encode_smallLiteral h]; rfl
  · rw [Operand.encode_largeLiteral h]; rfl

/-- Every mnemonic but the four conditionals has an opcode that writes operand A (30_encoding.md R101). -/
theorem Mnemonic.instr_writesA {m : Mnemonic} (h : m ∉ [.ife, .ifn, .ifg, .ifb]) (a b : OperandClass) :
    ∃ op, opcodeWritesA op = true ∧ (m.instr a b).form = .basic op a b := by
  cases m with
  | ife | ifn | ifg | ifb => simp at h
  | set | add | sub | mul | div | mod | shl | shr | and | bor | xor => exact ⟨_, rfl, rfl⟩

theorem kind_eq_literalDestination {i : Instr} {op : BitVec 4} {a b : OperandClass} (h : i.form = .basic op a b)
    (hop : opcodeWritesA op = true) (ha : a.isLiteral = true) : i.kind = .literalDestination := by
  simp [Instr.kind, h, hop, ha]

/-- Settles O59: the two encodings of a literal, the order of a line's words, and a literal destination's kind. -/
theorem literalsAssembleAsStated : Obligations.LiteralsAssembleAsStated := by
  refine ⟨fun n hlo hhi => ?small, fun n hn => ?large, fun m x n => ⟨rfl, rfl⟩, fun m c n hm => ?destination⟩
  case small =>
    have hk := smallLiteral_toNat ⟨hlo, hhi⟩
    exact ⟨_, Operand.encode_smallLiteral ⟨hlo, hhi⟩, hk, by rw [litCode_toNat]; omega⟩
  case large =>
    exact ⟨_, Operand.encode_largeLiteral (by omega), literalWord_toNat n⟩
  case destination =>
    obtain ⟨op, hwrites, hform⟩ := Mnemonic.instr_writesA hm (Operand.literal n).encode.1 c
    exact kind_eq_literalDestination hform hwrites (Operand.encode_literal_isLiteral n)

end Sys2Proof.Asm
end

section
/-! PROOFS of the family 40_execution_cycle.md: the rows of the operand table, reading and writing a target, and the
endings of a run. -/

namespace Sys2Proof.Machine

/-! ## Resolving one operand -/

/-- An operand in memory: its extra word's fetch is checked, then its cell (40_execution_cycle.md R147, R149). -/
theorem resolve_cell {c : OperandClass} {s : State} {addr : Word} (ht : operandTarget c s = .mem addr) :
    resolve c s =
      if c.extraWords = 1 ∧ s.memWords ≤ s.pc.toNat then .error ⟨.extraWordOutOfRange, some s.pc⟩
      else if addr.toNat < s.memWords then .ok (.mem addr, afterOperand c s)
      else .error ⟨.operandAddressOutOfRange, some addr⟩ := by
  simp only [resolve_eq, operandFault, ht]
  by_cases hx : c.extraWords = 1 ∧ s.memWords ≤ s.pc.toNat
  · simp only [if_pos hx]
  · by_cases ha : addr.toNat < s.memWords
    · simp only [if_neg hx, if_neg (Nat.not_le.mpr ha), if_pos ha]
    · simp only [if_neg hx, if_pos (Nat.le_of_not_lt ha), if_neg ha]

/-- An operand in memory that has no extra word: only its cell is checked. -/
theorem resolve_cell_of_no_extra {c : OperandClass} {s : State} {addr : Word} (hx : c.extraWords = 0)
    (ht : operandTarget c s = .mem addr) :
    resolve c s =
      if addr.toNat < s.memWords then .ok (.mem addr, afterOperand c s)
      else .error ⟨.operandAddressOutOfRange, some addr⟩ := by
  simp [resolve_cell ht, hx]

/-- An operand in memory whose extra word gives its cell. -/
theorem resolve_cell_of_extra {c : OperandClass} {s : State} {addr : Word} (hx : c.extraWords = 1)
    (ht : operandTarget c s = .mem addr) :
    resolve c s =
      if s.memWords ≤ s.pc.toNat then .error ⟨.extraWordOutOfRange, some s.pc⟩
      else if addr.toNat < s.memWords then .ok (.mem addr, afterOperand c s)
      else .error ⟨.operandAddressOutOfRange, some addr⟩ := by
  simp [resolve_cell ht, hx]

/-- A literal in the next word: only its fetch is checked. -/
theorem resolve_nextLit (s : State) :
    resolve .nextLit s =
      if s.memWords ≤ s.pc.toNat then .error ⟨.extraWordOutOfRange, some s.pc⟩
      else .ok (.lit s.nextWord, s.advance) := by
  by_cases hp : s.memWords ≤ s.pc.toNat
  · rw [if_pos hp]
    exact resolve_of_fault (if_pos ⟨rfl, hp⟩)
  · rw [if_neg hp]
    exact resolve_of_inRange ⟨fun _ => Nat.lt_of_not_le hp, rfl⟩

/-- An operand without an extra word whose location is in range, as every location but a cell is, raises nothing. -/
theorem resolve_of_no_extra {c : OperandClass} {s : State} (hx : c.extraWords = 0)
    (ht : (operandTarget c s).inRange s.memWords = true) :
    resolve c s = .ok (operandTarget c s, afterOperand c s) :=
  resolve_of_inRange ⟨fun h => by simp [hx] at h, ht⟩

theorem resolve_lit (n : BitVec 5) (s : State) :
    resolve (.lit n) s = .ok (.lit (BitVec.ofNat 16 n.toNat), s) := by
  rw [BitVec.ofNat_toNat]
  exact resolve_of_no_extra rfl rfl

/-- Settles O12: each row is one of the shapes above, with the row's target and side effect. -/
theorem operandTable : Obligations.OperandTable := fun s _ n =>
  ⟨resolve_of_no_extra rfl rfl, resolve_cell_of_no_extra rfl rfl, resolve_cell_of_extra rfl rfl,
    resolve_cell_of_no_extra rfl rfl, resolve_cell_of_no_extra rfl rfl, resolve_cell_of_no_extra rfl rfl,
    resolve_of_no_extra rfl rfl, resolve_of_no_extra rfl rfl, resolve_of_no_extra rfl rfl,
    resolve_cell_of_extra rfl rfl, resolve_nextLit s, resolve_lit n s⟩

/-! ## Writing a literal -/

/-- The eleven opcodes that write operand A share one shape; only the effect differs. -/
theorem exec_eq_writing {i : Instr} {a b : OperandClass} (h : i ∈ plainWriters a b ++ flagWriters a b) (s : State) :
    ∃ effect, exec i s = writing i a b s effect := by
  simp only [plainWriters, flagWriters, List.cons_append, List.nil_append, List.mem_cons, List.not_mem_nil,
    or_false] at h
  obtain rfl | rfl | rfl | rfl | rfl | rfl | rfl | rfl | rfl | rfl | rfl := h <;> exact ⟨_, rfl⟩

/-- The decode check stops every instruction that would write a literal (40_execution_cycle.md R144). -/
theorem exec_of_literal {i : Instr} {a b : OperandClass} (h : i ∈ plainWriters a b ++ flagWriters a b)
    (ha : a.isLiteral = true) (s : State) :
    exec i s = .next (raiseFatal s (some (encodeWord i)) ⟨.writeToLiteral, none⟩) := by
  obtain ⟨effect, he⟩ := exec_eq_writing h s
  rw [he, writing_of_literal i b s effect ha]

/-- Settles O13: reads and writes are the model's equations, `Regs.get_set` is the register law, and `exec_of_literal`
the fault. -/
theorem targetsReadAndWrite : Obligations.TargetsReadAndWrite := by
  refine fun s r addr v => ⟨rfl, rfl, rfl, rfl, rfl, rfl, rfl, rfl, rfl, rfl, rfl, fun q => ?register,
    fun a b i t hi ha h => ?literal⟩
  case register => simp only [Regs.get_set, eq_comm]
  case literal =>
    rw [exec_of_literal hi ha] at h
    cases h
    rfl

/-! ## The endings of a run -/

theorem step_next {s : State} (hs : s.status = .running) : ∃ t, step s = .next t := by
  unfold step
  rw [hs]
  cases fetchInstr s with
  | error f => exact ⟨_, rfl⟩
  | ok w =>
    cases s.skip with
    | true => exact complete_next _ _ _
    | false => exact exec_next (decode w) s

/-- An executed instruction faults, halts if it is HALT, or leaves the run status. -/
theorem exec_status_cases {i : Instr} {s t : State} (h : exec i s = .next t) :
    (∃ f, t = raiseFatal s (some (encodeWord i)) f) ∨ (t.status = .halted ∧ ∃ b, i = .halt b) ∨
      t.status = s.status := by
  cases exec_cases h with
  | fault f hf ht => exact .inl ⟨f, ht⟩
  | halt b hi hr ht => exact .inr (.inl ⟨by simp [ht], b, hi⟩)
  | plain a b r hi hl hr ht | resultThenO a b r o hi hl hr ht | oThenResult a b r o hi hl hr ht =>
    exact .inr (.inr (by simp [ht, Target.write_status]))
  | conditional a b v hi hr hv ht => exact .inr (.inr (by simp [ht]))
  | jsr b hi hr hs ht => exact .inr (.inr (by simp [ht]))

/-- A skipped instruction faults or leaves the run status. -/
theorem skipInstr_status_cases {i : Instr} {s t : State} (h : skipInstr i s = .next t) :
    (∃ f, t = raiseFatal s (some (encodeWord i)) f) ∨ t.status = s.status := by
  obtain ⟨-, rfl⟩ | ⟨addr, -, rfl⟩ | ⟨n, -, rfl⟩ := skipInstr_cases h
  · exact .inl ⟨_, rfl⟩
  · exact .inl ⟨_, rfl⟩
  · exact .inr rfl

/-- A step from a running state faults, halts by an executed HALT in memory, or leaves the run on. -/
theorem step_status_cases {s t : State} (hs : s.status = .running) (h : step s = .next t) :
    (∃ w f, t = raiseFatal s w f) ∨
      (t.status = .halted ∧ s.pc.toNat < s.memWords ∧ s.skip = false ∧ ∃ b, decode (s.readMem s.pc) = .halt b) ∨
      t.status = .running := by
  obtain ⟨-, ht⟩ | ⟨-, -, hskip⟩ | ⟨hp, hk, hexec⟩ := step_cases hs h
  · exact .inl ⟨_, _, ht⟩
  · obtain ⟨f, ht⟩ | ht := skipInstr_status_cases hskip
    · exact .inl ⟨_, f, ht⟩
    · exact .inr (.inr (ht.trans hs))
  · obtain ⟨f, ht⟩ | ⟨ht, hhalt⟩ | ht := exec_status_cases hexec
    · exact .inl ⟨_, f, ht⟩
    · exact .inr (.inl ⟨ht, hp, hk, hhalt⟩)
    · exact .inr (.inr (ht.trans hs))

/-- Settles O48: a running state steps (`step_next`), and `step_status_cases` lists the endings. -/
theorem runHasNoOtherEnding : Obligations.RunHasNoOtherEnding := by
  intro s hs
  obtain ⟨t, h⟩ := step_next hs
  refine ⟨t, h, ?_⟩
  obtain ⟨w, f, rfl⟩ | ⟨ht, -, hk, hhalt⟩ | ht := step_status_cases hs h
  · exact .inr (.inr ⟨rfl, nofun⟩)
  · exact .inr (.inl ⟨ht, hk, hhalt⟩)
  · exact .inl ht

end Sys2Proof.Machine
end

section
/-! PROOFS of the family 41_move_arith.md: SET, ADD, SUB, MUL, DIV and MOD. -/

namespace Sys2Proof

/-! ## Decoding a basic opcode -/

theorem decode_eq_of_form {w : Word} {i : Instr}
    (h : i.form = .basic (opField w) (.ofCode (aField w)) (.ofCode (bField w))) : decode w = i := by
  cases i with
  | set a b | add a b | sub a b | mul a b | div a b | mod a b | shl a b | shr a b | and a b | bor a b | xor a b
  | ife a b | ifn a b | ifg a b | ifb a b =>
    simp only [Instr.form, InstrForm.basic.injEq] at h
    obtain ⟨hop, rfl, rfl⟩ := h
    rw [decode, ← hop]
    rfl
  | jsr b | halt b | undefinedNonBasic opcode b => simp [Instr.form] at h

end Sys2Proof

namespace Sys2Proof.Machine

/-! ## What the rules share -/

theorem encodedAs_of_form {op : BitVec 4} {mk : OperandClass → OperandClass → Instr}
    (h : ∀ a b, (mk a b).form = .basic op a b) : EncodedAs op mk :=
  fun _ hw => decode_eq_of_form (hw ▸ h _ _)

/-- Every opcode that writes operand A has the exceptions of the template (41_move_arith.md): they come from the shared
shape `writing`, whatever the effect. -/
theorem writingExceptions_of_mem_writers {mk : OperandClass → OperandClass → Instr}
    (h : ∀ a b, mk a b ∈ plainWriters a b ++ flagWriters a b) : WritingExceptions mk := by
  refine ⟨fun a b s ha => ?literal, fun a b s f ha hf => ?operands⟩
  case literal => exact ⟨_, exec_of_literal (h a b) ha s, rfl, rfl⟩
  case operands =>
    obtain ⟨effect, he⟩ := exec_eq_writing (h a b) s
    exact ⟨_, he.trans (writing_of_fault _ effect ha hf), rfl, rfl⟩

/-! ## The results as machine word operations -/

theorem addResult_eq (vA vB : Word) : addResult vA vB = vA + vB := by
  rw [addResult, wrap16, BitVec.ofNat_add, BitVec.ofNat_toNat, BitVec.ofNat_toNat, BitVec.setWidth_eq,
    BitVec.setWidth_eq]

theorem subResult_eq (vA vB : Word) : subResult vA vB = vA - vB := by
  apply BitVec.eq_of_toNat_eq
  rw [subResult, BitVec.toNat_ofInt, BitVec.toNat_sub]
  omega

/-- DIV's result without its case for a zero divisor: word division by zero is 0 (41_move_arith.md R184). -/
theorem divResult_eq (vA vB : Word) : divResult vA vB = vA / vB := by
  by_cases hz : vB = 0
  · rw [divResult, if_pos hz, hz]
    exact BitVec.udiv_zero.symm
  · rw [divResult, if_neg hz, wrap16, ← BitVec.toNat_udiv, BitVec.ofNat_toNat, BitVec.setWidth_eq]

/-! ## The 32-bit values -/

/-- A half of a 32-bit value is the wrap of the value shifted down to it. -/
theorem extractLsb'_eq_wrap16 (x : BitVec 32) (k : Nat) : x.extractLsb' k 16 = wrap16 (x.toNat >>> k) := rfl

/-- The product of two words fits 32 bits. -/
theorem product_toNat (vA vB : Word) :
    (vA.setWidth 32 * vB.setWidth 32 : BitVec 32).toNat = vA.toNat * vB.toNat := by
  have hlt : vA.toNat * vB.toNat < 2 ^ 16 * 2 ^ 16 := Nat.mul_lt_mul'' vA.isLt vB.isLt
  rw [BitVec.toNat_mul, BitVec.toNat_setWidth_of_le (by decide), BitVec.toNat_setWidth_of_le (by decide)]
  exact Nat.mod_eq_of_lt hlt

/-- A word in the high half of a 32-bit value keeps all its bits. -/
theorem highHalf_toNat (v : Word) : (v.setWidth 32 <<< 16 : BitVec 32).toNat = v.toNat <<< 16 := by
  have := v.isLt
  rw [BitVec.toNat_shiftLeft, BitVec.toNat_setWidth_of_le (by decide), Nat.shiftLeft_eq]
  omega

theorem mulResult_eq (vA vB : Word) :
    mulResult vA vB = (vA.setWidth 32 * vB.setWidth 32 : BitVec 32).extractLsb' 0 16 := by
  rw [extractLsb'_eq_wrap16, product_toNat]
  rfl

theorem mulOverflow_eq (vA vB : Word) :
    mulOverflow vA vB = (vA.setWidth 32 * vB.setWidth 32 : BitVec 32).extractLsb' 16 16 := by
  rw [extractLsb'_eq_wrap16, product_toNat]
  rfl

/-- DIV's O without its case for a zero divisor: the 32-bit quotient is 0 there as well. -/
theorem divOverflow_eq (vA vB : Word) :
    divOverflow vA vB = ((vA.setWidth 32 <<< 16) / vB.setWidth 32 : BitVec 32).extractLsb' 0 16 := by
  rw [extractLsb'_eq_wrap16, BitVec.toNat_udiv, highHalf_toNat, BitVec.toNat_setWidth_of_le (by decide)]
  by_cases hz : vB = 0
  · simp [divOverflow, hz, wrap16]
  · exact if_neg hz

/-! ## The instructions

Each rule's next state is the model's effect (`writing_of_inRange`) once the results are said as word operations; O's
case split, where there is one, is the rule's own. -/

/-- Settles O17: SET's effect is the rule's own. -/
theorem setRule : Obligations.SetRule :=
  ⟨encodedAs_of_form fun _ _ => rfl, writingExceptions_of_mem_writers (by simp [plainWriters]),
    fun _ _ _ ha hr => writing_of_inRange _ _ ha hr⟩

/-- Settles O18: the wrapped sum is the word sum. -/
theorem addRule : Obligations.AddRule :=
  ⟨encodedAs_of_form fun _ _ => rfl, writingExceptions_of_mem_writers (by simp [flagWriters]),
    fun _ _ _ ha hr => by
      simp only [← addResult_eq]
      exact writing_of_inRange _ _ ha hr⟩

/-- Settles O19: the wrapped difference is the word difference. -/
theorem subRule : Obligations.SubRule :=
  ⟨encodedAs_of_form fun _ _ => rfl, writingExceptions_of_mem_writers (by simp [flagWriters]),
    fun _ _ _ ha hr => by
      simp only [← subResult_eq]
      exact writing_of_inRange _ _ ha hr⟩

/-- Settles O20: result and O are the two halves of the 32-bit product. -/
theorem mulRule : Obligations.MulRule :=
  ⟨encodedAs_of_form fun _ _ => rfl, writingExceptions_of_mem_writers (by simp [flagWriters]),
    fun _ _ _ ha hr => by
      simp only [← mulResult_eq, ← mulOverflow_eq]
      exact writing_of_inRange _ _ ha hr⟩

/-- Settles O21: result and O are the word quotient and the low half of the 32-bit quotient. -/
theorem divRule : Obligations.DivRule :=
  ⟨encodedAs_of_form fun _ _ => rfl, writingExceptions_of_mem_writers (by simp [flagWriters]),
    fun _ _ _ ha hr => by
      simp only [← divResult_eq, ← divOverflow_eq]
      exact writing_of_inRange _ _ ha hr⟩

/-- Settles O22: the result is the word remainder, with the rule's own case for a zero divisor. -/
theorem modRule : Obligations.ModRule :=
  ⟨encodedAs_of_form fun _ _ => rfl, writingExceptions_of_mem_writers (by simp [plainWriters]),
    fun _ _ _ ha hr => by
      simp only [← modResult_eq]
      exact writing_of_inRange _ _ ha hr⟩

end Sys2Proof.Machine
end

section
/-! PROOFS of the family 42_shift_logic.md: AND, BOR and XOR. -/

namespace Sys2Proof.Machine

/-- An opcode that writes `result vA vB` to operand A and does nothing else has the template's encoding and exceptions,
and this next state when its operands are in range (42_shift_logic.md R202 to R204). -/
theorem rule_of_exec_eq_writing_result {op : BitVec 4} {mk : OperandClass → OperandClass → Instr}
    {result : Word → Word → Word} (hform : ∀ a b, (mk a b).form = .basic op a b)
    (hmem : ∀ a b, mk a b ∈ plainWriters a b)
    (hexec : ∀ a b s, exec (mk a b) s = writing (mk a b) a b s fun p => p.tA.write (result p.vA p.vB) p.st) :
    EncodedAs op mk ∧ WritingExceptions mk ∧
      ∀ a b s, a.isLiteral = false → OperandsInRange a b s →
        let p := resolvedOperands a b s
        exec (mk a b) s = .next (p.tA.write (result p.vA p.vB) p.st) := by
  refine ⟨encodedAs_of_form hform, writingExceptions_of_mem_writers fun a b => ?writer, fun a b s ha hr => ?effect⟩
  case writer => exact List.mem_append_left _ (hmem a b)
  case effect => exact (hexec a b s).trans (writing_of_inRange _ _ ha hr)

/-- Settles O25: AND's meaning is the shared shape with the bitwise and. -/
theorem andRule : Obligations.AndRule :=
  rule_of_exec_eq_writing_result (fun _ _ => rfl) (by simp [plainWriters]) fun _ _ _ => rfl

/-- Settles O26: BOR's meaning is the shared shape with the bitwise or. -/
theorem borRule : Obligations.BorRule :=
  rule_of_exec_eq_writing_result (fun _ _ => rfl) (by simp [plainWriters]) fun _ _ _ => rfl

/-- Settles O27: XOR's meaning is the shared shape with the bitwise exclusive or. -/
theorem xorRule : Obligations.XorRule :=
  rule_of_exec_eq_writing_result (fun _ _ => rfl) (by simp [plainWriters]) fun _ _ _ => rfl

end Sys2Proof.Machine
end

section
/-! PROOFS of the family 43_conditional.md: IFE, IFN, IFG and IFB. -/

namespace Sys2Proof.Machine

/-- The exceptions of a conditional are its operands' (43_conditional.md R220): they come from the shared shape
`conditional`, whatever the condition. -/
theorem conditionalExceptions_of_exec_eq_conditional {mk : OperandClass → OperandClass → Instr}
    {cond : Word → Word → Bool} (hexec : ∀ a b s, exec (mk a b) s = conditional (mk a b) a b s cond) :
    ConditionalExceptions mk :=
  fun a b s _ hf => ⟨_, (hexec a b s).trans (conditional_of_fault _ cond hf), rfl, rfl⟩

/-- A conditional, with any condition `cond`, has the template's encoding and exceptions; when its operands are in range
it sets `skip` to `skips vA vB`, the negation of its condition (43_conditional.md R220). -/
theorem rule_of_exec_eq_conditional {op : BitVec 4} {mk : OperandClass → OperandClass → Instr}
    {cond : Word → Word → Bool} (skips : Word → Word → Bool) (hform : ∀ a b, (mk a b).form = .basic op a b)
    (hexec : ∀ a b s, exec (mk a b) s = conditional (mk a b) a b s cond)
    (hskips : ∀ vA vB, (!cond vA vB) = skips vA vB) :
    EncodedAs op mk ∧ ConditionalExceptions mk ∧
      ∀ a b s, OperandsInRange a b s →
        let p := resolvedOperands a b s
        exec (mk a b) s = .next (p.st.setSkip (skips p.vA p.vB)) := by
  refine ⟨encodedAs_of_form hform, conditionalExceptions_of_exec_eq_conditional hexec, fun a b s hr => ?_⟩
  simp only [← hskips]
  exact (hexec a b s).trans (conditional_of_inRange _ cond hr)

/-- Two words have no bit in common exactly when their bitwise and is zero. -/
theorem and_eq_zero_iff_disjoint (vA vB : Word) :
    vA &&& vB = 0 ↔ ∀ k : Fin 16, ¬ (vA.getLsbD k = true ∧ vB.getLsbD k = true) := by
  rw [BitVec.eq_of_getLsbD_eq_iff, Fin.forall_iff]
  refine forall₂_congr fun k _ => ?_
  rw [BitVec.getLsbD_and, BitVec.ofNat_eq_ofNat, BitVec.getLsbD_zero, ← Bool.and_eq_true, Bool.not_eq_true]

/-- Settles O28: `skip` is the negation of the equality test. -/
theorem ifeRule : Obligations.IfeRule :=
  rule_of_exec_eq_conditional (fun vA vB => decide (vA ≠ vB)) (fun _ _ => rfl) (fun _ _ _ => rfl)
    fun vA vB => (decide_not (p := vA = vB)).symm

/-- Settles O29: `skip` is the equality test, negated twice. -/
theorem ifnRule : Obligations.IfnRule :=
  rule_of_exec_eq_conditional (fun vA vB => decide (vA = vB)) (fun _ _ => rfl) (fun _ _ _ => rfl)
    fun vA vB => Bool.not_not (vA == vB)

/-- Settles O30: "not above" is the unsigned "at most". -/
theorem ifgRule : Obligations.IfgRule :=
  rule_of_exec_eq_conditional BitVec.ule (fun _ _ => rfl) (fun _ _ _ => rfl) fun vA vB =>
    (decide_not (p := vA.toNat > vB.toNat)).symm.trans (decide_eq_decide.mpr Nat.not_lt)

/-- Settles O31: the and of the operands is zero exactly when they share no bit. -/
theorem ifbRule : Obligations.IfbRule :=
  rule_of_exec_eq_conditional
    (fun vA vB => decide (∀ k : Fin 16, ¬ (vA.getLsbD k = true ∧ vB.getLsbD k = true)))
    (fun _ _ => rfl) (fun _ _ _ => rfl) fun vA vB => by
    rw [← decide_eq_decide.mpr (and_eq_zero_iff_disjoint vA vB)]
    exact Bool.not_not (vA &&& vB == 0)

end Sys2Proof.Machine
end

section
/-! PROOFS of the family 60_exceptions.md: the fatal error's end of a run, and the exact causes of codes 1 and 4. -/

namespace Sys2Proof.Machine

/-! ## The word at PC -/

/-- Encoding is the inverse of decoding, for every word (30_encoding.md R91, R106). -/
theorem encodeWord_decode (w : Word) : encodeWord (decode w) = w := by
  rw [encodeWord, decode_form]
  by_cases hop : opField w = 0#4
  · -- The opcode field of a non-basic word is 0, and its `a` field holds the non-basic opcode.
    have hjoin : joinFields 0#4 (aField w) (bField w) = w := hop ▸ joinFields_fields w
    by_cases ha : aField w = 0x00#6 ∨ aField w = 0x01#6
    · simp only [if_pos hop, if_pos ha, OperandClass.code_ofCode, hjoin]
    · simp only [if_pos hop, if_neg ha, hjoin]
  · simp only [if_neg hop, OperandClass.code_ofCode, joinFields_fields]

theorem step_of_fetched {s : State} (hs : s.status = .running) (hp : s.pc.toNat < s.memWords) :
    step s = if s.skip then skipInstr (decode (s.readMem s.pc)) s else exec (decode (s.readMem s.pc)) s := by
  rw [step, hs, fetchInstr_eq, if_pos hp]

/-! ## What raises a fatal error -/

/-- An executed instruction raises a fatal error for one of its causes, or leaves the record and does not fault. -/
theorem exec_fault_cases {i : Instr} {s t : State} (hn : s.status ≠ .faulted) (h : exec i s = .next t) :
    (∃ f, ExecFault i s f ∧ t = raiseFatal s (some (encodeWord i)) f) ∨
      (t.fault = s.fault ∧ t.status ≠ .faulted) := by
  cases exec_cases h with
  | fault f hf ht => exact .inl ⟨f, hf, ht⟩
  | plain a b r hi hl hr ht | resultThenO a b r o hi hl hr ht | oThenResult a b r o hi hl hr ht =>
    exact .inr ⟨by simp [ht, Target.write_fault], by simp [ht, Target.write_status, hn]⟩
  | conditional a b v hi hr hv ht | jsr b hi hr hs ht | halt b hi hr ht =>
    exact .inr ⟨by simp [ht], by simp [ht, hn]⟩

/-- A skipped instruction raises code 2 or code 5, or leaves the record and the status (60_exceptions.md R263, R266). -/
theorem skipInstr_fault_cases {i : Instr} {s t : State} (h : skipInstr i s = .next t) :
    (∃ f, (f.code = .extraWordOutOfRange ∨ f.code = .undefinedNonBasic) ∧
        t = raiseFatal s (some (encodeWord i)) f) ∨
      (t.fault = s.fault ∧ t.status = s.status) := by
  obtain ⟨-, rfl⟩ | ⟨addr, -, rfl⟩ | ⟨n, -, rfl⟩ := skipInstr_cases h
  · exact .inl ⟨_, .inr rfl, rfl⟩
  · exact .inl ⟨_, .inl rfl, rfl⟩
  · exact .inr ⟨rfl, rfl⟩

/-- Everything that can become of the fault record in a step from a running state: the fetch raises code 1, the
instruction at PC raises a fatal error of its own, or the record is left and the step does not fault. -/
theorem step_fault_cases {s t : State} (hs : s.status = .running) (h : step s = .next t) :
    (s.memWords ≤ s.pc.toNat ∧ t = raiseFatal s none ⟨.fetchOutOfRange, some s.pc⟩) ∨
      (∃ f, ((s.skip = false ∧ ExecFault (decode (s.readMem s.pc)) s f) ∨
          f.code = .extraWordOutOfRange ∨ f.code = .undefinedNonBasic) ∧
        t = raiseFatal s (some (s.readMem s.pc)) f) ∨
      (t.fault = s.fault ∧ t.status ≠ .faulted) := by
  have hn : s.status ≠ .faulted := by simp [hs]
  obtain hfetch | ⟨-, -, hskip⟩ | ⟨-, hk, hexec⟩ := step_cases hs h
  · exact .inl hfetch
  · obtain ⟨f, hf, ht⟩ | ⟨hfault, hstatus⟩ := skipInstr_fault_cases hskip
    · exact .inr (.inl ⟨f, .inr hf, by rw [ht, encodeWord_decode]⟩)
    · exact .inr (.inr ⟨hfault, hstatus ▸ hn⟩)
  · obtain ⟨f, hf, ht⟩ | hkeep := exec_fault_cases hn hexec
    · exact .inr (.inl ⟨f, .inl ⟨hk, hf⟩, by rw [ht, encodeWord_decode]⟩)
    · exact .inr (.inr hkeep)

/-- Code 1 is the fetch's alone; no instruction raises it. -/
theorem ExecFault.code_ne_fetchOutOfRange {i : Instr} {s : State} {f : FatalError} (h : ExecFault i s f) :
    f.code ≠ .fetchOutOfRange := by
  cases h with
  | outOfRange addr hc ha hr => obtain hc | hc := hc <;> simp [hc]
  | literal hc | undefined hc => simp [hc]

/-- Code 4 is raised only by an instruction whose destination is a literal. -/
theorem ExecFault.kind_of_writeToLiteral {i : Instr} {s : State} {f : FatalError} (h : ExecFault i s f)
    (hf : f.code = .writeToLiteral) : i.kind = .literalDestination := by
  cases h with
  | outOfRange addr hc ha hr => obtain hc | hc := hc <;> simp [hc] at hf
  | literal hc ha hk => exact hk
  | undefined hc ha hk => simp [hc] at hf

/-! ## Code 1 -/

theorem step_of_fetch_out_of_range {s : State} (hs : s.status = .running) (hp : s.memWords ≤ s.pc.toNat) :
    step s = .next (raiseFatal s none ⟨.fetchOutOfRange, some s.pc⟩) := by
  rw [step, hs, fetchInstr_eq, if_neg (Nat.not_lt.mpr hp)]

/-- A step that sets a record of code 1 has its PC out of range. -/
theorem fault_fetchOutOfRange {s t : State} {r : FaultRecord} (hs : s.status = .running) (h : step s = .next t)
    (hr : t.fault = some r) (hnone : s.fault = none) (hc : r.code = .fetchOutOfRange) :
    s.memWords ≤ s.pc.toNat ∧ r = ⟨.fetchOutOfRange, s.pc, none, some s.pc⟩ := by
  obtain ⟨hp, rfl⟩ | ⟨f, hf, rfl⟩ | ⟨hkeep, -⟩ := step_fault_cases hs h
  · cases hr
    exact ⟨hp, rfl⟩
  · cases hr
    obtain ⟨-, hf⟩ | hf := hf
    · exact absurd hc hf.code_ne_fetchOutOfRange
    · obtain hf | hf := hf <;> cases hc.symm.trans hf
  · rw [hkeep, hnone] at hr
    cases hr

/-- Settles O45: the fetch raises code 1 and nothing else does; a 16-bit PC is always below 65536. -/
theorem fetchBeyondMemoryFaults : Obligations.FetchBeyondMemoryFaults := by
  refine ⟨fun s hs hp => ⟨_, step_of_fetch_out_of_range hs hp, rfl, rfl⟩,
    fun s t r hs h hr hnone hc => fault_fetchOutOfRange hs h hr hnone hc, fun s t r hs hnone hcap h hr hc => ?full⟩
  case full =>
    have hp : s.memWords ≤ s.pc.toNat := (fault_fetchOutOfRange hs h hr hnone hc).1
    have := s.pc.isLt
    omega

/-! ## The end of the run -/

theorem step_of_faulted {s : State} (hs : s.status = .faulted) : step s = .fault (.runFaulted s.fault) := by
  rw [step, hs]

/-- Settles O49: a step reaches `faulted` only by `raiseFatal`, which sets the record and lets no step follow. -/
theorem fatalErrorEndsRun : Obligations.FatalErrorEndsRun := by
  refine ⟨fun s w f => ⟨raiseFatal_status s w f, raiseFatal_fault s w f⟩, fun s t h ht => ?_⟩
  obtain ⟨w, f, rfl⟩ | ⟨hhalted, -⟩ | hrunning := step_status_cases (step_of_not_running h) h
  · exact ⟨_, raiseFatal_fault s w f, rfl, step_of_faulted ht⟩
  · exact absurd (hhalted.symm.trans ht) (by decide)
  · exact absurd (hrunning.symm.trans ht) (by decide)

/-! ## Code 4 -/

/-- The literal classes are the codes from 0x1f on (30_encoding.md R100). -/
theorem isLiteral_ofCode_iff (c : BitVec 6) : (OperandClass.ofCode c).isLiteral = true ↔ 0x1f ≤ c.toNat := by
  revert c; decide

theorem opcodeWritesA_iff (op : BitVec 4) : opcodeWritesA op = true ↔ 0x1 ≤ op.toNat ∧ op.toNat ≤ 0xb := by
  simp [opcodeWritesA]

/-- The words that write a literal, by their fields (30_encoding.md R106). -/
theorem decode_kind_literalDestination_iff (w : Word) : (decode w).kind = .literalDestination ↔
    0x1 ≤ (opField w).toNat ∧ (opField w).toNat ≤ 0xb ∧ 0x1f ≤ (aField w).toNat := by
  rw [← isLiteral_ofCode_iff, ← and_assoc, ← opcodeWritesA_iff]
  by_cases hop : opField w = 0
  · -- A non-basic word is HALT, JSR or undefined, and no opcode 0 writes operand A.
    by_cases ha : (aField w).toNat < 2
    · rw [Instr.kind, decode_form_nonBasic hop ha]
      by_cases h0 : aField w = 0x00#6 <;> simp [hop, h0, opcodeWritesA]
    · rw [Instr.kind, decode_form_undefined hop (Nat.le_of_not_lt ha)]
      simp [hop, opcodeWritesA]
  · simp [Instr.kind, decode_form_basic hop]

/-- An instruction that writes a literal is one of the eleven writers, with a literal operand A. -/
theorem exists_writer_of_kind {i : Instr} (h : i.kind = .literalDestination) :
    ∃ a b, i ∈ plainWriters a b ++ flagWriters a b ∧ a.isLiteral = true := by
  cases i with
  | set a b | add a b | sub a b | mul a b | div a b | mod a b | shl a b | shr a b | and a b | bor a b | xor a b =>
    exact ⟨a, b, by simp [plainWriters, flagWriters], by simpa [Instr.kind, Instr.form, opcodeWritesA] using h⟩
  | ife a b | ifn a b | ifg a b | ifb a b => simp [Instr.kind, Instr.form, opcodeWritesA] at h
  | jsr b | halt b | undefinedNonBasic opcode b => simp [Instr.kind, Instr.form] at h

/-- The decode check of an executed literal destination (40_execution_cycle.md R144). -/
theorem exec_of_literalDestination {i : Instr} (h : i.kind = .literalDestination) (s : State) :
    exec i s = .next (raiseFatal s (some (encodeWord i)) ⟨.writeToLiteral, none⟩) := by
  obtain ⟨a, b, hi, ha⟩ := exists_writer_of_kind h
  exact exec_of_literal hi ha s

/-- A step that ends with a record of code 4 has executed an instruction that writes a literal. -/
theorem fault_writeToLiteral {s t : State} {r : FaultRecord} (hs : s.status = .running) (h : step s = .next t)
    (ht : t.status = .faulted) (hr : t.fault = some r) (hc : r.code = .writeToLiteral) :
    s.skip = false ∧ (decode (s.readMem s.pc)).kind = .literalDestination := by
  obtain ⟨-, rfl⟩ | ⟨f, hf, rfl⟩ | ⟨-, hn⟩ := step_fault_cases hs h
  · cases hr
    cases hc
  · cases hr
    obtain ⟨hk, hf⟩ | hf := hf
    · exact ⟨hk, hf.kind_of_writeToLiteral hc⟩
    · obtain hf | hf := hf <;> cases hc.symm.trans hf
  · exact absurd ht hn

/-- Settles O53: the word's fields give its kind, and code 4 is that kind's fault and no other's. -/
theorem writeToLiteralRaisedExactly : Obligations.WriteToLiteralRaisedExactly := by
  intro s hs hp w cause
  refine ⟨fun ⟨hk, hfields⟩ => ?raised, fun t r h ht hr hc => ?only⟩
  case raised =>
    have hexec := exec_of_literalDestination ((decode_kind_literalDestination_iff w).mpr hfields) s
    rw [encodeWord_decode] at hexec
    rw [step_of_fetched hs hp, if_neg (by simp [hk])]
    exact ⟨_, hexec, rfl, rfl⟩
  case only =>
    obtain ⟨hk, hkind⟩ := fault_writeToLiteral hs h ht hr hc
    exact ⟨hk, (decode_kind_literalDestination_iff w).mp hkind⟩

end Sys2Proof.Machine
end

section
/-! PROOFS of the family 30_encoding.md, second part: decoding and encoding are inverse, streams of words, and the kinds
of words. -/

namespace Sys2Proof

/-- Settles O1: the decoder run on the spec's own words. -/
theorem specWordsDecode : Obligations.SpecWordsDecode := by
  unfold Obligations.SpecWordsDecode
  decide

/-! ## Decoding what was encoded -/

theorem decode_of_opField_zero {w : Word} (h : opField w = 0) : decode w = decodeNonBasic (aField w) (bField w) := by
  rw [decode, h]
  rfl

/-- The word of a well-formed instruction decodes to it (30_encoding.md R92, R103). -/
theorem decode_encodeWord {i : Instr} (hi : i.wellFormed = true) : decode (encodeWord i) = i := by
  cases i with
  | set a b | add a b | sub a b | mul a b | div a b | mod a b | shl a b | shr a b | and a b | bor a b | xor a b
  | ife a b | ifn a b | ifg a b | ifb a b =>
    exact decode_eq_of_form (by simp [encodeWord, Instr.form])
  | halt b | jsr b =>
    rw [decode_of_opField_zero (by simp [encodeWord, Instr.form])]
    simp [encodeWord, Instr.form, decodeNonBasic]
  | undefinedNonBasic n b =>
    have hn : ¬ (n = 0x00#6 ∨ n = 0x01#6) := by
      rw [nonBasicOpcode_defined_iff]
      exact Nat.not_lt.mpr (of_decide_eq_true hi)
    obtain ⟨h0, h1⟩ := not_or.mp hn
    rw [decode_of_opField_zero (by simp [encodeWord, Instr.form])]
    simp only [encodeWord, Instr.form, aField_joinFields, bField_joinFields, decodeNonBasic, if_neg h0, if_neg h1]

/-- Well-formedness asks something of the undefined non-basic opcodes only (30_encoding.md R103). -/
theorem Instr.wellFormed_iff_form (i : Instr) :
    i.wellFormed = true ↔ ∀ n b, i.form = .undefined n b → 2 ≤ n.toNat := by
  cases i <;> simp [Instr.wellFormed, Instr.form]

theorem decode_wellFormed (w : Word) : (decode w).wellFormed = true := by
  rw [Instr.wellFormed_iff_form]
  intro n b h
  by_cases hop : opField w = 0
  · by_cases ha : (aField w).toNat < 2
    · rw [decode_form_nonBasic hop ha] at h
      cases h
    · rw [decode_form_undefined hop (Nat.le_of_not_lt ha)] at h
      cases h
      exact Nat.le_of_not_lt ha
  · rw [decode_form_basic hop] at h
    cases h

/-- Settles O4: `decode_encodeWord` one way, `encodeWord_decode` the other. -/
theorem decodeEncodeAgree : Obligations.DecodeEncodeAgree :=
  ⟨fun _ hi => decode_encodeWord hi, fun w => ⟨decode_wellFormed w, Machine.encodeWord_decode w⟩⟩

/-! ## Streams of words -/

/-- Settles O5: the first word decodes to the instruction, whose length cuts the rest at its own extra words. -/
theorem encodedWordsReadBack : Obligations.EncodedWordsReadBack := by
  intro i extras rest hi hx
  have hlen : extras.length ≤ (extras ++ rest).length := by simp
  simp only [encode, List.cons_append, decodeStream, decode_encodeWord hi, hx, if_pos hlen, List.take_left,
    List.drop_left]

/-! ## The kinds of words -/

/-- The five kinds of words by their fields (30_encoding.md R106). -/
theorem decode_kind_cases (w : Word) :
    ((decode w).kind = .halt ∧ (opField w).toNat = 0 ∧ (aField w).toNat = 0) ∨
      ((decode w).kind = .jsr ∧ (opField w).toNat = 0 ∧ (aField w).toNat = 1) ∨
      ((decode w).kind = .undefinedNonBasic ∧ (opField w).toNat = 0 ∧ 2 ≤ (aField w).toNat) ∨
      ((decode w).kind = .literalDestination ∧ (opField w).toNat ≠ 0 ∧ (opField w).toNat ≤ 0xb ∧
        0x1f ≤ (aField w).toNat) ∨
      ((decode w).kind = .legalBasic ∧ (opField w).toNat ≠ 0 ∧
        ¬ ((opField w).toNat ≤ 0xb ∧ 0x1f ≤ (aField w).toNat)) := by
  by_cases hop : opField w = 0
  · have hzero : (opField w).toNat = 0 := congrArg BitVec.toNat hop
    by_cases ha : (aField w).toNat < 2
    · have hform := decode_form_nonBasic hop ha
      by_cases h0 : aField w = 0x00#6
      · exact .inl ⟨by simp only [Instr.kind, hform, if_pos h0], hzero, congrArg BitVec.toNat h0⟩
      · have h1 : (aField w).toNat ≠ 0 := fun h => h0 (BitVec.eq_of_toNat_eq h)
        exact .inr (.inl ⟨by simp only [Instr.kind, hform, if_neg h0], hzero, by omega⟩)
    · have hform := decode_form_undefined hop (Nat.le_of_not_lt ha)
      exact .inr (.inr (.inl ⟨by simp only [Instr.kind, hform], hzero, Nat.le_of_not_lt ha⟩))
  · have hpos : (opField w).toNat ≠ 0 := fun h => hop (BitVec.eq_of_toNat_eq h)
    have hform := decode_form_basic hop
    by_cases hlit : (opField w).toNat ≤ 0xb ∧ 0x1f ≤ (aField w).toNat
    · have hdest : (opcodeWritesA (opField w) && (OperandClass.ofCode (aField w)).isLiteral) = true := by
        rw [Bool.and_eq_true, Machine.opcodeWritesA_iff, Machine.isLiteral_ofCode_iff]
        omega
      exact .inr (.inr (.inr (.inl ⟨by simp only [Instr.kind, hform, if_pos hdest], hpos, hlit⟩)))
    · have hdest : ¬ (opcodeWritesA (opField w) && (OperandClass.ofCode (aField w)).isLiteral) = true := by
        rw [Bool.and_eq_true, Machine.opcodeWritesA_iff, Machine.isLiteral_ofCode_iff]
        omega
      exact .inr (.inr (.inr (.inr ⟨by simp only [Instr.kind, hform, if_neg hdest], hpos, hlit⟩)))

/-- Settles O7: in each case of `decode_kind_cases` the word's kind and its fields decide all five equivalences. -/
theorem everyWordClassified : Obligations.EveryWordClassified := by
  intro w op a
  obtain ⟨hkind, hfields⟩ | ⟨hkind, hfields⟩ | ⟨hkind, hfields⟩ | ⟨hkind, hfields⟩ | ⟨hkind, hfields⟩ :=
    decode_kind_cases w
  all_goals
    simp only [hkind, reduceCtorEq, false_iff, true_iff]
    omega

end Sys2Proof
end

section
/-! PROOFS of the families 20_memory.md and 70_reset_and_hazards.md: memory's canonical form, and the reset state. -/

namespace Sys2Proof.Machine

/-! ## Equal memories are equal lists -/

/-- A canonical memory starts with a cell that differs from an unlisted one, and the cells after it lie above it. -/
theorem Memory.wfFrom_cons {low k : Nat} {v : Word} {m : Memory} :
    Memory.wfFrom low ((k, v) :: m) = true ↔ low ≤ k ∧ v ≠ Memory.unlisted ∧ Memory.wfFrom (k + 1) m = true := by
  simp [Memory.wfFrom, and_assoc]

@[simp] theorem Memory.get_cons_same (k : Nat) (v : Word) (m : Memory) : Memory.get ((k, v) :: m) k = v := if_pos rfl

theorem Memory.get_cons_of_ne {k addr : Nat} (h : k ≠ addr) (v : Word) (m : Memory) :
    Memory.get ((k, v) :: m) addr = Memory.get m addr := if_neg h

/-- A canonical memory's first cell is listed, so one that reads alike there starts no higher. -/
theorem Memory.head_le_of_get_eq {low k k' : Nat} {v v' : Word} {m m' : Memory}
    (hm : Memory.wfFrom low ((k, v) :: m) = true) (hm' : Memory.wfFrom low ((k', v') :: m') = true)
    (hget : Memory.get ((k, v) :: m) k = Memory.get ((k', v') :: m') k) : k' ≤ k := by
  obtain ⟨-, hv, -⟩ := Memory.wfFrom_cons.mp hm
  refine Nat.le_of_not_lt fun hlt => ?_
  have hbelow : Memory.wfFrom k' ((k', v') :: m') = true :=
    Memory.wfFrom_cons.mpr ⟨Nat.le_refl k', (Memory.wfFrom_cons.mp hm').2⟩
  rw [Memory.get_cons_same, Memory.get_of_lt hbelow hlt] at hget
  exact hv hget

/-- Canonical memories that read alike at every address are equal. -/
theorem Memory.eq_of_get_eq {low : Nat} {m m' : Memory} (hm : Memory.wfFrom low m = true)
    (hm' : Memory.wfFrom low m' = true) (hget : ∀ addr, Memory.get m addr = Memory.get m' addr) : m = m' := by
  induction m generalizing low m' with
  | nil =>
    cases m' with
    | nil => rfl
    | cons c' m' =>
      obtain ⟨k', v'⟩ := c'
      have hk' := hget k'
      rw [Memory.get_cons_same] at hk'
      exact absurd hk'.symm (Memory.wfFrom_cons.mp hm').2.1
  | cons c m ih =>
    obtain ⟨k, v⟩ := c
    cases m' with
    | nil =>
      have hk := hget k
      rw [Memory.get_cons_same] at hk
      exact absurd hk (Memory.wfFrom_cons.mp hm).2.1
    | cons c' m' =>
      obtain ⟨k', v'⟩ := c'
      obtain rfl : k = k' := Nat.le_antisymm (Memory.head_le_of_get_eq hm' hm (hget k').symm)
        (Memory.head_le_of_get_eq hm hm' (hget k))
      obtain ⟨-, -, hrest⟩ := Memory.wfFrom_cons.mp hm
      obtain ⟨-, -, hrest'⟩ := Memory.wfFrom_cons.mp hm'
      obtain rfl : v = v' := by simpa using hget k
      refine congrArg _ (ih hrest hrest' fun addr => ?_)
      by_cases hk : k = addr
      · -- Both rests lie above `k`, so neither lists it.
        rw [← hk, Memory.get_of_lt hrest (Nat.lt_succ_self k), Memory.get_of_lt hrest' (Nat.lt_succ_self k)]
      · simpa only [Memory.get_cons_of_ne hk] using hget addr

/-- Settles O11: `Memory.wf_set` and `Memory.eq_of_get_eq`. -/
theorem canonicalMemory : Obligations.CanonicalMemory :=
  ⟨fun _ addr v hm => Memory.wf_set hm addr v, fun _ _ hm hm' hget => Memory.eq_of_get_eq hm hm' hget⟩

/-! ## Reset -/

/-- An image longer than the memory is not loaded (92_eei_decisions.md D27). -/
theorem State.load_of_lt {s : State} {image : List Word} (h : s.memWords < image.length) : s.load image = none :=
  if_neg (Nat.not_le.mpr h)

/-- Settles O9: the fields of `State.resetWith`, the cells of `INIT_MEM`, and the refused load. -/
theorem resetState : Obligations.ResetState := fun _ _ =>
  ⟨rfl, rfl, rfl, rfl, rfl, rfl, rfl, fun _ _ h hlookup => State.readMem_powerOn h hlookup,
    fun _ h => State.load_of_lt h⟩

/-- A reset state with canonical memory inside a legal capacity meets the invariant. -/
theorem State.resetWith_inv {memWords : Nat} {mem : Memory} (hcap : legalMemWords memWords = true)
    (hwf : Memory.wf mem = true) (hwithin : Memory.within mem memWords = true) :
    (State.resetWith memWords mem).Inv := by
  simp only [legalMemWords, Bool.and_eq_true, decide_eq_true_eq] at hcap
  obtain ⟨hpos, hle⟩ := hcap
  exact
    { memWords_pos := hpos
      memWords_le := hle
      mem_wf := hwf
      mem_within := hwithin
      fault_iff := by simp
      fault_wf := by simp
      halted_skip := by simp }

theorem State.powerOn_inv {memWords : Nat} (hcap : legalMemWords memWords = true) (initMem : List Cell) :
    (State.powerOn memWords initMem).Inv :=
  State.resetWith_inv hcap (Memory.wf_ofCells memWords initMem) (Memory.within_ofCells memWords initMem)

/-- Settles O51: `State.reset` is a power-on at the reference capacity. -/
theorem resetMeetsInvariant : Obligations.ResetMeetsInvariant :=
  ⟨State.reset_eq_powerOn ▸ State.powerOn_inv (by decide) [], fun _ initMem hcap => State.powerOn_inv hcap initMem⟩

end Sys2Proof.Machine
end

section
/-! PROOFS of the family 40_execution_cycle.md, second part: the order of resolution, and PC as an operand. -/

namespace Sys2Proof.Machine

/-- Settles O14: `operands_eq` splits on `operandsFault`, which is absent exactly in range. -/
theorem operandsResolveInOrder : Obligations.OperandsResolveInOrder := by
  refine fun a b s => ⟨(operandsFault_eq_none_iff a b s).symm, fun hr => ?inRange, fun f hf => ?fault⟩
  case inRange => rw [operands_eq, (operandsFault_eq_none_iff a b s).mpr hr]
  case fault => rw [operands_eq, hf]

/-! ## PC past the whole instruction -/

/-- PC after a non-basic instruction's words. -/
theorem pc_afterOperand_advance (b : OperandClass) (s : State) :
    (afterOperand b s.advance).pc = s.pc + BitVec.ofNat 16 (1 + b.extraWords) := by
  rw [afterOperand_pc, State.advance_pc, BitVec.add_assoc, BitVec.ofNat_add]
  rfl

/-- PC after a basic instruction's words. -/
theorem resolvedOperands_pc_eq (a b : OperandClass) (s : State) :
    (resolvedOperands a b s).st.pc = s.pc + BitVec.ofNat 16 (1 + a.extraWords + b.extraWords) := by
  rw [resolvedOperands_pc, BitVec.ofNat_add, BitVec.ofNat_add, BitVec.add_assoc, BitVec.add_assoc, BitVec.add_assoc]
  rfl

/-- What an executed JSR does when it raises no fatal error. -/
theorem exec_jsr_cases {b : OperandClass} {s t : State} (h : exec (.jsr b) s = .next t) (hn : t.status ≠ .faulted) :
    ((afterOperand b s.advance).sp - 1).toNat < s.memWords ∧
      t = (((afterOperand b s.advance).setSp ((afterOperand b s.advance).sp - 1)).writeMem
        ((afterOperand b s.advance).sp - 1) (afterOperand b s.advance).pc).setPc
          ((operandTarget b s.advance).read (afterOperand b s.advance)) := by
  cases exec_cases h with
  | fault f hf ht => exact absurd (by rw [ht]; rfl) hn
  | jsr b' hi hr hs ht =>
    cases hi
    exact ⟨hs, ht⟩
  | halt b' hi => cases hi
  | plain a b' r hi | resultThenO a b' r o hi | oThenResult a b' r o hi | conditional a b' v hi =>
    simp [plainWriters, flagWriters, conditionals] at hi

/-- The new top cell holds the return address (44_nonbasic.md R241). -/
theorem exec_jsr_readMem_sp {b : OperandClass} {s t : State} (hm : Memory.wf s.mem = true)
    (h : exec (.jsr b) s = .next t) (hn : t.status ≠ .faulted) :
    t.readMem t.sp = s.pc + BitVec.ofNat 16 (1 + b.extraWords) := by
  obtain ⟨-, rfl⟩ := exec_jsr_cases h hn
  rw [← pc_afterOperand_advance]
  exact State.readMem_writeMem_same (by simpa using hm) _ _

/-- Settles O15: PC after the instruction's words, read as operand B, as operand A and by JSR. -/
theorem pcReadsAsNextInstruction : Obligations.PcReadsAsNextInstruction :=
  ⟨resolvedOperands_pc_eq, fun a s => resolvedOperands_pc_eq a .pc s,
    fun b s => resolvedOperands_pc_eq .pc b s, fun _ _ _ hm _ h hn => exec_jsr_readMem_sp hm h hn⟩

end Sys2Proof.Machine
end

section
/-! PROOFS of the families 41_move_arith.md and 42_shift_logic.md, second part: `SET PUSH, POP`, SHL, SHR, and O as the
destination of the flag writers. -/

namespace Sys2Proof.Machine

/-! ## SET PUSH, POP -/

/-- The push and the pop meet in one cell, the one below SP. -/
theorem operandsInRange_push_pop {s : State} (h : (s.sp - 1).toNat < s.memWords) : OperandsInRange .push .pop s := by
  simpa [OperandsInRange, OperandInRange, OperandClass.extraWords, operandTarget, Target.inRange, afterOperand] using h

/-- Settles O16: the cell below SP is written with its own value, and SP goes down and up again. -/
theorem setPushPopLeavesStack : Obligations.SetPushPopLeavesStack := by
  intro s hm hsp
  have hmem : Memory.set s.mem (s.sp - 1).toNat (s.readMem (s.sp - 1)) = s.mem := Memory.set_get_same hm _
  have hexec : exec (.set .push .pop) s =
      .next ((((s.advance.setSp (s.sp - 1)).setSp (s.sp - 1 + 1))).writeMem (s.sp - 1) (s.readMem (s.sp - 1))) :=
    writing_of_inRange _ _ rfl (operandsInRange_push_pop hsp)
  rw [hexec, State.writeMem, State.setSp_mem, State.setSp_mem, State.advance_mem, hmem, BitVec.sub_add_cancel]
  rfl

/-! ## The shifts as machine word operations -/

theorem shlResult_eq_shiftLeft (vA vB : Word) : shlResult vA vB = vA <<< vB.toNat := by
  apply BitVec.eq_of_toNat_eq
  rw [shlResult, wrap16, BitVec.toNat_ofNat, BitVec.toNat_shiftLeft]

theorem shrResult_eq_shiftRight (vA vB : Word) : shrResult vA vB = vA >>> vB.toNat := by
  rw [shrResult, wrap16, ← BitVec.toNat_ushiftRight, BitVec.ofNat_toNat, BitVec.setWidth_eq]

/-- A shift to the left in 32 bits loses only the bits from 32 on. -/
theorem shiftedLeft_toNat (v : Word) (n : Nat) :
    (v.setWidth 32 <<< n : BitVec 32).toNat = v.toNat <<< n % 2 ^ 32 := by
  rw [BitVec.toNat_shiftLeft, BitVec.toNat_setWidth_of_le (by decide)]

theorem shlResult_eq (vA vB : Word) :
    shlResult vA vB = (vA.setWidth 32 <<< vB.toNat : BitVec 32).extractLsb' 0 16 := by
  apply BitVec.eq_of_toNat_eq
  rw [extractLsb'_eq_wrap16, shiftedLeft_toNat, shlResult, wrap16, wrap16, BitVec.toNat_ofNat, BitVec.toNat_ofNat,
    Nat.shiftRight_zero]
  omega

theorem shlOverflow_eq (vA vB : Word) :
    shlOverflow vA vB = (vA.setWidth 32 <<< vB.toNat : BitVec 32).extractLsb' 16 16 := by
  apply BitVec.eq_of_toNat_eq
  rw [extractLsb'_eq_wrap16, shiftedLeft_toNat, shlOverflow, wrap16, wrap16, BitVec.toNat_ofNat, BitVec.toNat_ofNat,
    Nat.shiftRight_eq_div_pow, Nat.shiftRight_eq_div_pow]
  omega

/-- Shifted up by a word and down again, a word is what it was. -/
theorem shiftedRight_high (v n : Nat) : v <<< 16 >>> n >>> 16 = v >>> n := by
  rw [← Nat.shiftRight_add, Nat.add_comm, Nat.shiftRight_add, Nat.shiftLeft_shiftRight]

theorem shrResult_eq (vA vB : Word) :
    shrResult vA vB = ((vA.setWidth 32 <<< 16) >>> vB.toNat : BitVec 32).extractLsb' 16 16 := by
  rw [extractLsb'_eq_wrap16, BitVec.toNat_ushiftRight, highHalf_toNat, shiftedRight_high]
  rfl

theorem shrOverflow_eq (vA vB : Word) :
    shrOverflow vA vB = ((vA.setWidth 32 <<< 16) >>> vB.toNat : BitVec 32).extractLsb' 0 16 := by
  rw [extractLsb'_eq_wrap16, BitVec.toNat_ushiftRight, highHalf_toNat]
  rfl

/-! ## The instructions -/

/-- Settles O23: result and O are the two halves of the 32-bit value shifted left. -/
theorem shlRule : Obligations.ShlRule :=
  ⟨encodedAs_of_form fun _ _ => rfl, writingExceptions_of_mem_writers (by simp [flagWriters]),
    fun _ _ _ ha hr => by
      simp only [← shlResult_eq, ← shlOverflow_eq]
      exact writing_of_inRange _ _ ha hr⟩

/-- Settles O24: result and O are the two halves of the 32-bit value shifted right. -/
theorem shrRule : Obligations.ShrRule :=
  ⟨encodedAs_of_form fun _ _ => rfl, writingExceptions_of_mem_writers (by simp [flagWriters]),
    fun _ _ _ ha hr => by
      simp only [← shrResult_eq, ← shrOverflow_eq]
      exact writing_of_inRange _ _ ha hr⟩

/-- Settles O41: both writes go to O, so the one that the rule's pseudocode writes last is left. -/
theorem oAsDestinationOfFlagWriters : Obligations.OAsDestinationOfFlagWriters := by
  intro b s hr p
  have hwriting : ∀ (i : Instr) (effect : Operands → State), writing i .o b s effect = .next (effect p) :=
    fun i effect => writing_of_inRange i effect rfl hr
  simp only [← resolvedOperands_o_vA b s, ← mulOverflow_eq, ← shlResult_eq_shiftLeft, ← shrResult_eq_shiftRight]
  have hdiv : exec (.div .o b) s = .next (p.st.setO (if p.vB = 0 then 0 else p.vA / p.vB)) := by
    refine (hwriting _ _).trans ?_
    by_cases hz : p.vB = 0
    · rw [if_pos hz, if_pos hz]
      rfl
    · rw [if_neg hz, if_neg hz, divResult_eq]
      rfl
  exact ⟨hwriting _ _, hwriting _ _, hwriting _ _, hdiv, hwriting _ _, hwriting _ _⟩

end Sys2Proof.Machine
end

section
/-! PROOFS of the family 44_nonbasic.md: JSR, HALT and the undefined non-basic opcodes. -/

namespace Sys2Proof.Machine

/-- A fatal error as the end of a step names it. -/
theorem endsFaulted_of_eq {out : Outcome} {s : State} {w : Option Word} {f : FatalError}
    (h : out = .next (raiseFatal s w f)) : EndsFaulted out ⟨f.code, s.pc, w, f.addr⟩ :=
  ⟨_, h, rfl, rfl⟩

/-! ## JSR -/

theorem exec_jsr_of_fault {b : OperandClass} {s : State} {f : FatalError} (h : operandFault b s.advance = some f) :
    exec (.jsr b) s = .next (raiseFatal s (some (encodeWord (.jsr b))) f) := by
  rw [exec, execJsr_eq, h]

theorem exec_jsr_of_top_out_of_range {b : OperandClass} {s : State} (hr : OperandInRange b s.advance)
    (htop : s.memWords ≤ ((afterOperand b s.advance).sp - 1).toNat) :
    exec (.jsr b) s = .next (raiseFatal s (some (encodeWord (.jsr b)))
      ⟨.operandAddressOutOfRange, some ((afterOperand b s.advance).sp - 1)⟩) := by
  rw [exec, execJsr_eq, (operandFault_eq_none_iff b s.advance).mpr hr]
  exact if_neg (Nat.not_lt.mpr htop)

theorem exec_jsr_of_inRange {b : OperandClass} {s : State} (hr : OperandInRange b s.advance)
    (htop : ((afterOperand b s.advance).sp - 1).toNat < s.memWords) :
    exec (.jsr b) s =
      .next ((((afterOperand b s.advance).setSp ((afterOperand b s.advance).sp - 1)).writeMem
        ((afterOperand b s.advance).sp - 1) (afterOperand b s.advance).pc).setPc
          ((operandTarget b s.advance).read (afterOperand b s.advance))) := by
  rw [exec, execJsr_eq, (operandFault_eq_none_iff b s.advance).mpr hr]
  exact if_pos htop

/-- Settles O32: the operand's fault, the stack cell's, and the push and jump with PC and memory said of `s`. -/
theorem jsrRule : Obligations.JsrRule := by
  intro b s sB target top
  refine ⟨fun f hf => endsFaulted_of_eq (exec_jsr_of_fault hf),
    fun hr htop => endsFaulted_of_eq (exec_jsr_of_top_out_of_range hr htop), fun hr htop => ?_⟩
  have hpc : sB.pc = s.pc + BitVec.ofNat 16 (1 + b.extraWords) := pc_afterOperand_advance b s
  have hmem : sB.mem = s.mem := afterOperand_mem s.advance b
  rw [exec_jsr_of_inRange hr htop, ← hpc, ← hmem]
  rfl

/-! ## HALT -/

theorem exec_halt_of_fault {b : OperandClass} {s : State} {f : FatalError} (h : operandFault b s.advance = some f) :
    exec (.halt b) s = .next (raiseFatal s (some (encodeWord (.halt b))) f) := by
  rw [exec, execHalt_eq, h]

theorem exec_halt_of_inRange {b : OperandClass} {s : State} (hr : OperandInRange b s.advance) :
    exec (.halt b) s = .next ((afterOperand b s.advance).setStatus .halted) := by
  rw [exec, execHalt_eq, (operandFault_eq_none_iff b s.advance).mpr hr]

/-- An operand's side effects are on SP and PC alone (40_execution_cycle.md R147). -/
theorem afterOperand_eq (c : OperandClass) (s : State) :
    afterOperand c s = { s with sp := spAfterOperand c s.sp, pc := s.pc + BitVec.ofNat 16 c.extraWords } := by
  rw [← afterOperand_pc, ← afterOperand_sp]
  cases c <;> rfl

/-- The side effects of a non-basic instruction's words and operand. -/
theorem afterOperand_advance_eq (b : OperandClass) (s : State) :
    afterOperand b s.advance =
      { s with sp := spAfterOperand b s.sp, pc := s.pc + BitVec.ofNat 16 (1 + b.extraWords) } := by
  rw [← pc_afterOperand_advance, afterOperand_pc, afterOperand_eq]
  rfl

/-- Settles O33: the operand's fault, or its side effects and the status. -/
theorem haltRule : Obligations.HaltRule := by
  refine fun b s => ⟨fun f hf => endsFaulted_of_eq (exec_halt_of_fault hf), fun hr => ?_⟩
  rw [exec_halt_of_inRange hr, afterOperand_advance_eq]
  rfl

/-! ## The undefined non-basic opcodes -/

theorem decode_undefined {w : Word} (hop : opField w = 0) (ha : 2 ≤ (aField w).toNat) :
    decode w = .undefinedNonBasic (aField w) (bField w) := by
  have hn : ¬ (aField w = 0x00#6 ∨ aField w = 0x01#6) := by
    rw [nonBasicOpcode_defined_iff]
    exact Nat.not_lt.mpr ha
  obtain ⟨h0, h1⟩ := not_or.mp hn
  rw [decode_of_opField_zero hop, decodeNonBasic, if_neg h0, if_neg h1]

/-- An undefined non-basic opcode raises code 5 without looking at its operand (44_nonbasic.md R243). -/
theorem exec_undefinedNonBasic (n b : BitVec 6) (s : State) :
    exec (.undefinedNonBasic n b) s =
      .next (raiseFatal s (some (encodeWord (.undefinedNonBasic n b))) ⟨.undefinedNonBasic, none⟩) := rfl

/-- An instruction without a length cannot be skipped (92_eei_decisions.md D10). -/
theorem skipInstr_of_no_length {i : Instr} (h : i.extraWords = none) (s : State) :
    skipInstr i s = .next (raiseFatal s (some (encodeWord i)) ⟨.undefinedNonBasic, none⟩) := by
  rw [skipInstr, h]
  rfl

/-- Settles O34: the decoder's last arm, and code 5 on both paths. -/
theorem undefinedNonBasicRule : Obligations.UndefinedNonBasicRule :=
  ⟨fun _ hop ha => decode_undefined hop ha, fun n b s =>
    ⟨endsFaulted_of_eq (exec_undefinedNonBasic n b s), endsFaulted_of_eq (skipInstr_of_no_length rfl s)⟩⟩

end Sys2Proof.Machine
end

section
/-! PROOFS of the frames: what each group of instructions leaves unchanged (10_state.md sections 1 to 5). -/

namespace Sys2Proof.Machine

/-! ## The operands of a basic instruction are its form's -/

theorem form_of_mem_basic {i : Instr} {a b : OperandClass}
    (h : i ∈ plainWriters a b ∨ i ∈ flagWriters a b ∨ i ∈ conditionals a b) : ∃ op, i.form = .basic op a b := by
  simp only [plainWriters, flagWriters, conditionals, List.mem_cons, List.not_mem_nil, or_false] at h
  obtain (rfl | rfl | rfl | rfl | rfl) | (rfl | rfl | rfl | rfl | rfl | rfl) | rfl | rfl | rfl | rfl := h <;>
    exact ⟨_, rfl⟩

theorem operands_eq_of_mem_basic {i : Instr} {a b a' b' : OperandClass}
    (h : i ∈ plainWriters a b ∨ i ∈ flagWriters a b ∨ i ∈ conditionals a b)
    (h' : i ∈ plainWriters a' b' ∨ i ∈ flagWriters a' b' ∨ i ∈ conditionals a' b') : a = a' ∧ b = b' := by
  obtain ⟨op, hform⟩ := form_of_mem_basic h
  obtain ⟨op', hform'⟩ := form_of_mem_basic h'
  obtain ⟨-, ha, hb⟩ := InstrForm.basic.inj (hform.symm.trans hform')
  exact ⟨ha, hb⟩

/-- JSR and HALT are none of the basic instructions. -/
theorem not_nonBasic_of_mem_basic {i : Instr} {a b : OperandClass}
    (h : i ∈ plainWriters a b ∨ i ∈ flagWriters a b ∨ i ∈ conditionals a b) (b' : OperandClass) :
    i ≠ .jsr b' ∧ i ≠ .halt b' := by
  obtain ⟨op, hform⟩ := form_of_mem_basic h
  constructor <;> (rintro rfl; cases hform)

/-! ## What a basic instruction does when it raises no fatal error -/

theorem exec_plainWriter {a b : OperandClass} {i : Instr} {s t : State} (hi : i ∈ plainWriters a b)
    (h : exec i s = .next t) (hn : t.status ≠ .faulted) :
    ∃ r, t = (operandTarget a s.advance).write r (resolvedOperands a b s).st := by
  cases exec_cases h with
  | fault f hf ht => exact absurd (by rw [ht]; rfl) hn
  | plain a' b' r hi' hl hr ht =>
    obtain ⟨rfl, rfl⟩ := operands_eq_of_mem_basic (.inl hi) (.inl hi')
    exact ⟨r, ht⟩
  | resultThenO a' b' r o hi' | oThenResult a' b' r o hi' =>
    exact absurd hi' (not_mem_flagWriters_of_mem_plainWriters hi a' b')
  | conditional a' b' v hi' => exact absurd hi (not_mem_writers_of_mem_conditionals hi' a b).1
  | jsr b' hi' => exact absurd hi' (not_nonBasic_of_mem_basic (.inl hi) b').1
  | halt b' hi' => exact absurd hi' (not_nonBasic_of_mem_basic (.inl hi) b').2

/-- A flag writer's two writes, in either order (41_move_arith.md R187). -/
theorem exec_flagWriter {a b : OperandClass} {i : Instr} {s t : State} (hi : i ∈ flagWriters a b)
    (h : exec i s = .next t) (hn : t.status ≠ .faulted) :
    ∃ r o, t = ((operandTarget a s.advance).write r (resolvedOperands a b s).st).setO o ∨
      t = (operandTarget a s.advance).write r ((resolvedOperands a b s).st.setO o) := by
  cases exec_cases h with
  | fault f hf ht => exact absurd (by rw [ht]; rfl) hn
  | plain a' b' r hi' => exact absurd hi (not_mem_flagWriters_of_mem_plainWriters hi' a b)
  | resultThenO a' b' r o hi' hl hr ht =>
    obtain ⟨rfl, rfl⟩ := operands_eq_of_mem_basic (.inr (.inl hi)) (.inr (.inl hi'))
    exact ⟨r, o, .inl ht⟩
  | oThenResult a' b' r o hi' hl hr ht =>
    obtain ⟨rfl, rfl⟩ := operands_eq_of_mem_basic (.inr (.inl hi)) (.inr (.inl hi'))
    exact ⟨r, o, .inr ht⟩
  | conditional a' b' v hi' => exact absurd hi (not_mem_writers_of_mem_conditionals hi' a b).2
  | jsr b' hi' => exact absurd hi' (not_nonBasic_of_mem_basic (.inr (.inl hi)) b').1
  | halt b' hi' => exact absurd hi' (not_nonBasic_of_mem_basic (.inr (.inl hi)) b').2

theorem exec_conditional {a b : OperandClass} {i : Instr} {s t : State} (hi : i ∈ conditionals a b)
    (h : exec i s = .next t) (hn : t.status ≠ .faulted) : ∃ v, t = (resolvedOperands a b s).st.setSkip v := by
  cases exec_cases h with
  | fault f hf ht => exact absurd (by rw [ht]; rfl) hn
  | plain a' b' r hi' => exact absurd hi' (not_mem_writers_of_mem_conditionals hi a' b').1
  | resultThenO a' b' r o hi' | oThenResult a' b' r o hi' =>
    exact absurd hi' (not_mem_writers_of_mem_conditionals hi a' b').2
  | conditional a' b' v hi' hr hv ht =>
    obtain ⟨rfl, rfl⟩ := operands_eq_of_mem_basic (.inr (.inr hi)) (.inr (.inr hi'))
    exact ⟨v, ht⟩
  | jsr b' hi' => exact absurd hi' (not_nonBasic_of_mem_basic (.inr (.inr hi)) b').1
  | halt b' hi' => exact absurd hi' (not_nonBasic_of_mem_basic (.inr (.inr hi)) b').2

theorem exec_halt_cases {b : OperandClass} {s t : State} (h : exec (.halt b) s = .next t) (hn : t.status ≠ .faulted) :
    t = (afterOperand b s.advance).setStatus .halted := by
  cases exec_cases h with
  | fault f hf ht => exact absurd (by rw [ht]; rfl) hn
  | halt b' hi hr ht =>
    cases hi
    exact ht
  | jsr b' hi => cases hi
  | plain a b' r hi | resultThenO a b' r o hi | oThenResult a b' r o hi | conditional a b' v hi =>
    simp [plainWriters, flagWriters, conditionals] at hi

/-! ## The frames -/

/-- What `t` keeps of `s`, and where its SP and PC are, after an instruction with operands `a` and `b` that writes
operand A: everything but O, which the two groups of writers treat differently (10_state.md R39, R41). -/
def WriterFrame (a b : OperandClass) (s t : State) : Prop :=
  (∀ r, operandTarget a s.advance ≠ .reg r → t.reg r = s.reg r) ∧
    (operandTarget a s.advance ≠ .sp → t.sp = spAfterOperand b (spAfterOperand a s.sp)) ∧
    (operandTarget a s.advance ≠ .pc → t.pc = s.pc + BitVec.ofNat 16 (1 + a.extraWords + b.extraWords)) ∧
    (∀ addr, operandTarget a s.advance ≠ .mem addr → t.readMem addr = s.readMem addr) ∧
    t.skip = s.skip ∧ ControlUnchanged s t

/-- Writing operand A, before or after any write of O, has the writers' frame. -/
theorem writerFrame_write (a b : OperandClass) (r o : Word) (s : State) :
    WriterFrame a b s ((operandTarget a s.advance).write r ((resolvedOperands a b s).st.setO o)) :=
  ⟨fun _ ht => (Target.write_reg _ ht r).trans (resolvedOperands_reg a b s _),
    fun ht => (Target.write_sp _ ht r).trans (resolvedOperands_sp a b s),
    fun ht => (Target.write_pc _ ht r).trans (resolvedOperands_pc_eq a b s),
    fun addr ht => (Target.write_readMem _ ht r).trans (resolvedOperands_readMem a b s addr),
    (Target.write_skip _ _ r).trans (resolvedOperands_skip a b s),
    (Target.write_status _ _ r).trans (resolvedOperands_status a b s),
    (Target.write_fault _ _ r).trans (resolvedOperands_fault a b s),
    (Target.write_memWords _ _ r).trans (resolvedOperands_memWords a b s),
    (Target.write_draws _ _ r).trans (resolvedOperands_draws a b s)⟩

theorem exec_plainWriter_frame {a b : OperandClass} {i : Instr} {s t : State} (hi : i ∈ plainWriters a b)
    (h : exec i s = .next t) (hn : t.status ≠ .faulted) :
    WriterFrame a b s t ∧ (operandTarget a s.advance ≠ .o → t.o = s.o) := by
  obtain ⟨r, rfl⟩ := exec_plainWriter hi h hn
  exact ⟨writerFrame_write a b r (resolvedOperands a b s).st.o s,
    fun ht => (Target.write_o _ ht r).trans (resolvedOperands_o a b s)⟩

theorem exec_flagWriter_frame {a b : OperandClass} {i : Instr} {s t : State} (hi : i ∈ flagWriters a b)
    (h : exec i s = .next t) (hn : t.status ≠ .faulted) : WriterFrame a b s t := by
  obtain ⟨r, o, rfl | rfl⟩ := exec_flagWriter hi h hn
  · -- No part of the frame speaks of O, so a later write of O keeps it.
    exact writerFrame_write a b r (resolvedOperands a b s).st.o s
  · exact writerFrame_write a b r o s

/-- Settles O35: the writers' frame, and O, which a plain writer leaves unless it is the target. -/
theorem frameOfPlainWriters : Obligations.FrameOfPlainWriters := by
  intro a b i s t hi _ h hn tA
  obtain ⟨⟨hreg, hsp, hpc, hmem, hskip, hcontrol⟩, ho⟩ := exec_plainWriter_frame hi h hn
  exact ⟨hreg, hsp, hpc, ho, hmem, hskip, hcontrol⟩

/-- Settles O36: the writers' frame. -/
theorem frameOfFlagWriters : Obligations.FrameOfFlagWriters :=
  fun _ _ _ _ _ hi _ h hn => exec_flagWriter_frame hi h hn

/-- Settles O37: only the operands' side effects and `skip` change. -/
theorem frameOfConditionals : Obligations.FrameOfConditionals := by
  intro a b i s t hi _ h hn
  obtain ⟨v, rfl⟩ := exec_conditional hi h hn
  have hregs : (resolvedOperands a b s).st.regs = s.regs := by simp [resolvedOperands]
  simp [hregs, resolvedOperands_pc_eq, ControlUnchanged]

/-- Settles O38: the push's cell, PC and SP are what changes. -/
theorem frameOfJsr : Obligations.FrameOfJsr := by
  intro b s t _ h hn
  obtain ⟨-, rfl⟩ := exec_jsr_cases h hn
  have hcell : ∀ addr, addr ≠ (afterOperand b s.advance).sp - 1 →
      (((afterOperand b s.advance).setSp ((afterOperand b s.advance).sp - 1)).writeMem
        ((afterOperand b s.advance).sp - 1) (afterOperand b s.advance).pc).readMem addr = s.readMem addr :=
    fun addr ha => (State.readMem_writeMem_other _ ha.symm _).trans (by simp)
  simpa [ControlUnchanged] using hcell

/-- Settles O39: only the operand's side effects and the status change. -/
theorem frameOfHalt : Obligations.FrameOfHalt := by
  intro b s t _ h hn
  obtain rfl := exec_halt_cases h hn
  simp [pc_afterOperand_advance]

end Sys2Proof.Machine
end

section
/-! PROOFS of the whole machine's rules: where the state is written, what sets `skip`, how the status changes, and the
invariant. -/

namespace Sys2Proof.Machine

/-! ## Where the state is written -/

/-- Only a pop and a push move SP (10_state.md R35). -/
theorem pop_or_push_of_spAfterOperand_ne {c : OperandClass} {sp : Word} (h : spAfterOperand c sp ≠ sp) :
    c = .pop ∨ c = .push := by
  cases c <;> simp_all [spAfterOperand]

/-- SP moves by the operands of a basic instruction only if one of them is a pop or a push. -/
theorem pop_or_push_of_resolvedOperands_sp_ne {a b : OperandClass} {s : State}
    (h : spAfterOperand b (spAfterOperand a s.sp) ≠ s.sp) :
    (a = .pop ∨ b = .pop) ∨ a = .push ∨ b = .push := by
  by_cases ha : spAfterOperand a s.sp = s.sp
  · rw [ha] at h
    obtain rfl | rfl := pop_or_push_of_spAfterOperand_ne h
    · exact .inl (.inr rfl)
    · exact .inr (.inr rfl)
  · obtain rfl | rfl := pop_or_push_of_spAfterOperand_ne ha
    · exact .inl (.inl rfl)
    · exact .inr (.inl rfl)

/-- An operand class of the instruction's word. -/
def UsesClass (i : Instr) (c : OperandClass) : Prop :=
  (∃ op a b, i.form = .basic op a b ∧ (a = c ∨ b = c)) ∨ ∃ op b, i.form = .nonBasic op b ∧ b = c

theorem usesClass_of_basic_sp_ne {i : Instr} {op : BitVec 4} {a b : OperandClass} {s : State}
    (hform : i.form = .basic op a b) (h : spAfterOperand b (spAfterOperand a s.sp) ≠ s.sp) :
    UsesClass i .pop ∨ UsesClass i .push :=
  (pop_or_push_of_resolvedOperands_sp_ne h).imp (fun hc => .inl ⟨op, a, b, hform, hc⟩)
    (fun hc => .inl ⟨op, a, b, hform, hc⟩)

/-- The instruction writes operand A, and `tA` is where (30_encoding.md R101). -/
def WritesTarget (i : Instr) (s : State) (tA : Target) : Prop :=
  ∃ a b, i ∈ plainWriters a b ++ flagWriters a b ∧ operandTarget a s.advance = tA

/-- `t` differs from `s` in registers, SP and memory only where the instruction names them. -/
def WrittenWhereNamed (i : Instr) (s t : State) : Prop :=
  (∀ r, t.reg r ≠ s.reg r → WritesTarget i s (.reg r)) ∧
    (t.sp ≠ s.sp → WritesTarget i s .sp ∨ UsesClass i .pop ∨ UsesClass i .push ∨ ∃ b, i = .jsr b) ∧
    ∀ addr, t.readMem addr ≠ s.readMem addr →
      WritesTarget i s (.mem addr) ∨ ∃ b, i = .jsr b ∧ addr = spAfterOperand b s.sp - 1

/-- A writer's frame read backwards. -/
theorem WriterFrame.writtenWhereNamed {i : Instr} {a b : OperandClass} {s t : State} (hframe : WriterFrame a b s t)
    (hi : i ∈ plainWriters a b ++ flagWriters a b) : WrittenWhereNamed i s t := by
  obtain ⟨hreg, hsp, -, hmem, -, -⟩ := hframe
  obtain ⟨op, hform⟩ := form_of_mem_basic ((List.mem_append.mp hi).imp_right .inl)
  have hwrites : ∀ {tA}, operandTarget a s.advance = tA → WritesTarget i s tA := fun h => ⟨a, b, hi, h⟩
  refine ⟨fun r hr => ?_, fun hr => ?_, fun addr hr => ?_⟩
  · exact hwrites (Classical.byContradiction fun h => hr (hreg r h))
  · by_cases ht : operandTarget a s.advance = .sp
    · exact .inl (hwrites ht)
    · exact .inr ((usesClass_of_basic_sp_ne hform (hsp ht ▸ hr)).imp_right .inl)
  · exact .inl (hwrites (Classical.byContradiction fun h => hr (hmem addr h)))

/-- Settles O42: the frame of each group of instructions, read backwards. -/
theorem stateWrittenOnlyWhereNamed : Obligations.StateWrittenOnlyWhereNamed := by
  intro i s t hs h hn
  show WrittenWhereNamed i s t
  cases exec_cases h with
  | fault f hf ht => exact absurd (by rw [ht]; rfl) hn
  | plain a b r hi hl hr ht =>
    exact (exec_plainWriter_frame hi h hn).1.writtenWhereNamed (List.mem_append_left _ hi)
  | resultThenO a b r o hi | oThenResult a b r o hi =>
    exact (exec_flagWriter_frame hi h hn).writtenWhereNamed (List.mem_append_right _ hi)
  | conditional a b v hi hr hv ht =>
    obtain ⟨hregs, hsp, -, -, -, hmem, -⟩ := frameOfConditionals a b i s t hi hs h hn
    obtain ⟨op, hform⟩ := form_of_mem_basic (.inr (.inr hi))
    exact ⟨fun r hr => absurd (congrArg (Regs.get · r) hregs) hr,
      fun hr => .inr ((usesClass_of_basic_sp_ne hform (hsp ▸ hr)).imp_right .inl),
      fun addr hr => absurd (hmem addr) hr⟩
  | jsr b hi hr hs' ht =>
    subst hi
    obtain ⟨hregs, -, -, hmem, -⟩ := frameOfJsr b s t hs h hn
    exact ⟨fun r hr => absurd (congrArg (Regs.get · r) hregs) hr, fun _ => .inr (.inr (.inr ⟨b, rfl⟩)),
      fun addr hr => .inr ⟨b, rfl, Classical.byContradiction fun ha => hr (hmem addr ha)⟩⟩
  | halt b hi hr ht =>
    subst hi
    obtain ⟨-, hregs, -, hsp, -, -, hmem, -⟩ := frameOfHalt b s t hs h hn
    refine ⟨fun r hr => absurd (congrArg (Regs.get · r) hregs) hr, fun hr => .inr ?_,
      fun addr hr => absurd (hmem addr) hr⟩
    have huses : ∀ {c}, b = c → UsesClass (.halt b) c := fun hc => .inr ⟨0x00#6, b, rfl, hc⟩
    exact (pop_or_push_of_spAfterOperand_ne (hsp ▸ hr)).imp huses fun hc => .inl (huses hc)

/-! ## What sets skip -/

/-- Settles O43: every other way a step ends leaves `skip` clear. -/
theorem skipSetOnlyByConditionals : Obligations.SkipSetOnlyByConditionals := by
  intro s t h hn hskip
  obtain ⟨-, rfl⟩ | ⟨-, -, hskipped⟩ | ⟨-, hk, hexec⟩ := step_cases (step_of_not_running h) h
  · exact absurd rfl hn
  · obtain ⟨-, rfl⟩ | ⟨addr, -, rfl⟩ | ⟨n, -, rfl⟩ := skipInstr_cases hskipped
    · exact absurd rfl hn
    · exact absurd rfl hn
    · cases hskip
  · refine ⟨hk, ?_⟩
    cases exec_cases hexec with
    | fault f hf ht => exact absurd (by rw [ht]; rfl) hn
    | conditional a b v hi hr hv ht =>
      rw [ht, State.setSkip_skip] at hskip
      exact ⟨a, b, hr, hv.mp hskip⟩
    | plain a b r hi hl hr ht | resultThenO a b r o hi hl hr ht | oThenResult a b r o hi hl hr ht =>
      simp [ht, Target.write_skip, hk] at hskip
    | jsr b hi hr hs ht | halt b hi hr ht => simp [ht, hk] at hskip

/-! ## The step runs one instruction -/

/-- Settles O44: the word at PC decodes to the instruction it encodes. -/
theorem stepRunsDecodedInstruction : Obligations.StepRunsDecodedInstruction := by
  intro s i hs hp hi hw
  have hstep := step_of_fetched hs hp
  rw [hw, decode_encodeWord hi] at hstep
  exact ⟨fun hk => hstep.trans (if_neg (by simp [hk])), fun hk => hstep.trans (if_pos hk)⟩

/-! ## The status -/

/-- Settles O47: `step_status_cases` lists how the status changes. -/
theorem statusChangesAsStated : Obligations.StatusChangesAsStated := by
  refine ⟨fun _ _ => rfl, fun b s hr => ⟨_, exec_halt_of_inRange hr, rfl⟩, raiseFatal_status,
    fun s t h ht => ?halted, fun s t h ht => ?faulted, fun s hs => ?final⟩
  case halted =>
    obtain ⟨w, f, rfl⟩ | ⟨-, hp, hk, hhalt⟩ | hrunning := step_status_cases (step_of_not_running h) h
    · cases ht
    · exact ⟨hk, hp, hhalt⟩
    · cases ht.symm.trans hrunning
  case faulted =>
    obtain hfault | ⟨hhalted, -⟩ | hrunning := step_status_cases (step_of_not_running h) h
    · exact hfault
    · cases ht.symm.trans hhalted
    · cases ht.symm.trans hrunning
  case final =>
    cases hstatus : s.status with
    | running => exact absurd hstatus hs
    | halted => exact ⟨.runHalted, by rw [step, hstatus]⟩
    | faulted => exact ⟨_, step_of_faulted hstatus⟩

/-! ## The cause of a fatal error -/

/-- Only an undefined non-basic instruction has no length (30_encoding.md R104). -/
theorem kind_of_no_extraWords {i : Instr} (h : i.extraWords = none) : i.kind = .undefinedNonBasic := by
  cases hform : i.form with
  | basic op a b | nonBasic n b => simp [Instr.extraWords, hform] at h
  | undefined n b => simp [Instr.kind, hform]

/-- A skipped instruction's fatal errors are among those of an executed one. -/
theorem skipInstr_faulted_cases {i : Instr} {s t : State} (hs : s.status = .running) (h : skipInstr i s = .next t)
    (ht : t.status = .faulted) : ∃ f, ExecFault i s f ∧ t = raiseFatal s (some (encodeWord i)) f := by
  obtain ⟨hx, rfl⟩ | ⟨addr, ha, rfl⟩ | ⟨n, -, rfl⟩ := skipInstr_cases h
  · exact ⟨_, .undefined rfl rfl (kind_of_no_extraWords hx), rfl⟩
  · exact ⟨_, .outOfRange addr (.inl rfl) rfl ha, rfl⟩
  · cases ht.symm.trans hs

/-- A step that faults raised code 1, or a fatal error of the instruction at PC, executed or skipped. -/
theorem step_faulted_cases {s t : State} (hs : s.status = .running) (h : step s = .next t) (ht : t.status = .faulted) :
    (s.memWords ≤ s.pc.toNat ∧ t = raiseFatal s none ⟨.fetchOutOfRange, some s.pc⟩) ∨
      (s.pc.toNat < s.memWords ∧ ∃ f, ExecFault (decode (s.readMem s.pc)) s f ∧
        t = raiseFatal s (some (s.readMem s.pc)) f) := by
  have hw := encodeWord_decode (s.readMem s.pc)
  obtain hfetch | ⟨hp, -, hskip⟩ | ⟨hp, -, hexec⟩ := step_cases hs h
  · exact .inl hfetch
  · obtain ⟨f, hf, ht'⟩ := skipInstr_faulted_cases hs hskip ht
    exact .inr ⟨hp, f, hf, hw ▸ ht'⟩
  · obtain ⟨f, hf, ht'⟩ | ⟨-, hn⟩ := exec_fault_cases (by simp [hs]) hexec
    · exact .inr ⟨hp, f, hf, hw ▸ ht'⟩
    · exact absurd ht hn

/-- The record of a failed fetch is one its code allows. -/
theorem fetchFault_wf {s : State} (hp : s.memWords ≤ s.pc.toNat) :
    FaultRecord.wf ⟨.fetchOutOfRange, s.pc, none, some s.pc⟩ s.memWords :=
  ⟨rfl, rfl, hp⟩

/-- The record of an instruction's fatal error is one its code allows. -/
theorem ExecFault.record_wf {w : Word} {s : State} {f : FatalError} (h : ExecFault (decode w) s f)
    (hp : s.pc.toNat < s.memWords) : FaultRecord.wf ⟨f.code, s.pc, some w, f.addr⟩ s.memWords := by
  obtain ⟨code, faultAddr⟩ := f
  cases h with
  | outOfRange addr hc ha hr => obtain rfl | rfl := hc <;> exact ⟨hp, nofun, addr, ha, hr⟩
  | literal hc ha hk | undefined hc ha hk =>
    obtain rfl := hc
    exact ⟨hp, ha, w, rfl, hk⟩

/-- An address is never out of range of the full memory (00_scope.md R11). -/
theorem ExecFault.code_of_full_memory {i : Instr} {s : State} {f : FatalError} (h : ExecFault i s f)
    (hfull : s.memWords = 65536) : f.code = .writeToLiteral ∨ f.code = .undefinedNonBasic := by
  cases h with
  | outOfRange addr hc ha hr => exact absurd addr.isLt (by omega)
  | literal hc => exact .inl hc
  | undefined hc => exact .inr hc

/-- Settles O52: both causes of `step_faulted_cases` give a record that its code allows. -/
theorem faultRecordNamesCause : Obligations.FaultRecordNamesCause := by
  intro s t r hs h ht hr
  obtain ⟨hp, rfl⟩ | ⟨hp, f, hf, rfl⟩ := step_faulted_cases hs h ht
  · cases hr
    have := s.pc.isLt
    exact ⟨rfl, fetchFault_wf hp, fun hc => absurd rfl hc, fun hfull => by omega⟩
  · cases hr
    exact ⟨rfl, hf.record_wf hp, fun _ => rfl, hf.code_of_full_memory⟩

/-! ## Code 5 -/

theorem decode_kind_undefinedNonBasic_iff (w : Word) :
    (decode w).kind = .undefinedNonBasic ↔ opField w = 0 ∧ 2 ≤ (aField w).toNat := by
  obtain ⟨-, -, -, -, h⟩ := everyWordClassified w
  rw [h, ← BitVec.toNat_inj]
  rfl

/-- Code 5 is raised only by an undefined non-basic instruction. -/
theorem ExecFault.kind_of_undefinedNonBasic {i : Instr} {s : State} {f : FatalError} (h : ExecFault i s f)
    (hf : f.code = .undefinedNonBasic) : i.kind = .undefinedNonBasic := by
  cases h with
  | outOfRange addr hc ha hr => obtain hc | hc := hc <;> simp [hc] at hf
  | literal hc ha hk => simp [hc] at hf
  | undefined hc ha hk => exact hk

/-- Settles O54: both paths raise code 5 for such a word, and `step_faulted_cases` names no other cause of it. -/
theorem undefinedNonBasicRaisedExactly : Obligations.UndefinedNonBasicRaisedExactly := by
  intro s hs hp w cause
  refine ⟨fun ⟨hop, ha⟩ => ?raised, fun t r h ht hr hc => ?only⟩
  case raised =>
    have hw : encodeWord (.undefinedNonBasic (aField w) (bField w)) = w := by
      rw [← decode_undefined hop ha, encodeWord_decode]
    refine endsFaulted_of_eq (f := ⟨.undefinedNonBasic, none⟩) ?_
    rw [step_of_fetched hs hp, decode_undefined hop ha, skipInstr_of_no_length rfl, exec_undefinedNonBasic, hw,
      ite_self]
  case only =>
    obtain ⟨-, rfl⟩ | ⟨-, f, hf, rfl⟩ := step_faulted_cases hs h ht
    · cases hr
      cases hc
    · cases hr
      exact (decode_kind_undefinedNonBasic_iff w).mp (hf.kind_of_undefinedNonBasic hc)

/-! ## The invariant -/

/-- Memory is canonical and lists only cells the block owns. -/
def State.CanonicalWithin (s : State) : Prop :=
  Memory.wf s.mem = true ∧ Memory.within s.mem s.memWords = true

/-- A state with the memory and the capacity of another is canonical with it. -/
theorem State.CanonicalWithin.of_eq {s t : State} (hs : s.CanonicalWithin) (hmem : t.mem = s.mem)
    (hcap : t.memWords = s.memWords) : t.CanonicalWithin := by
  rwa [State.CanonicalWithin, hmem, hcap]

theorem State.CanonicalWithin.write {s : State} (hs : s.CanonicalWithin) {tA : Target}
    (ht : tA.inRange s.memWords = true) (v : Word) : (tA.write v s).CanonicalWithin := by
  refine ⟨Target.write_mem_wf hs.1 tA v, ?_⟩
  rw [Target.write_memWords]
  exact Target.write_mem_within hs.2 ht v

theorem raiseFatal_canonicalWithin (s : State) (w : Option Word) (f : FatalError) :
    (raiseFatal s w f).CanonicalWithin :=
  ⟨Memory.wf_ofCells _ _, Memory.within_ofCells _ _⟩

/-- No instruction changes the capacity, and each keeps memory canonical. -/
theorem exec_canonicalWithin {i : Instr} {s t : State} (hm : s.CanonicalWithin) (h : exec i s = .next t) :
    t.CanonicalWithin ∧ t.memWords = s.memWords := by
  have hst : ∀ a b o, ((resolvedOperands a b s).st.setO o).CanonicalWithin :=
    fun a b o => hm.of_eq (resolvedOperands_mem a b s) (resolvedOperands_memWords a b s)
  have hcap : ∀ a b o, ((resolvedOperands a b s).st.setO o).memWords = s.memWords :=
    fun a b o => resolvedOperands_memWords a b s
  cases exec_cases h with
  | fault f hf ht => exact ht ▸ ⟨raiseFatal_canonicalWithin s _ f, rfl⟩
  | plain a b r hi hl hr ht | resultThenO a b r o hi hl hr ht =>
    exact ht ▸ ⟨(hst a b (resolvedOperands a b s).st.o).write (resolvedOperands_inRange hr) r,
      (Target.write_memWords _ _ r).trans (hcap a b (resolvedOperands a b s).st.o)⟩
  | oThenResult a b r o hi hl hr ht =>
    exact ht ▸ ⟨(hst a b o).write (resolvedOperands_inRange hr) r, (Target.write_memWords _ _ r).trans (hcap a b o)⟩
  | conditional a b v hi hr hv ht =>
    exact ht ▸ ⟨hst a b (resolvedOperands a b s).st.o, hcap a b (resolvedOperands a b s).st.o⟩
  | jsr b hi hr hs ht =>
    have hsp : ((afterOperand b s.advance).setSp ((afterOperand b s.advance).sp - 1)).CanonicalWithin :=
      hm.of_eq (by simp) (by simp)
    have htop :
        (Target.mem ((afterOperand b s.advance).sp - 1)).inRange (afterOperand b s.advance).memWords = true := by
      simpa [Target.inRange] using hs
    exact ht ▸ ⟨hsp.write htop _, by simp⟩
  | halt b hi hr ht => exact ht ▸ ⟨hm.of_eq (by simp) (by simp), by simp⟩

theorem skipInstr_canonicalWithin {i : Instr} {s t : State} (hm : s.CanonicalWithin) (h : skipInstr i s = .next t) :
    t.CanonicalWithin ∧ t.memWords = s.memWords := by
  obtain ⟨-, rfl⟩ | ⟨addr, -, rfl⟩ | ⟨n, -, rfl⟩ := skipInstr_cases h
  · exact ⟨raiseFatal_canonicalWithin s _ _, rfl⟩
  · exact ⟨raiseFatal_canonicalWithin s _ _, rfl⟩
  · exact ⟨hm, rfl⟩

theorem step_canonicalWithin {s t : State} (hm : s.CanonicalWithin) (h : step s = .next t) :
    t.CanonicalWithin ∧ t.memWords = s.memWords := by
  obtain ⟨-, rfl⟩ | ⟨-, -, hskip⟩ | ⟨-, -, hexec⟩ := step_cases (step_of_not_running h) h
  · exact ⟨raiseFatal_canonicalWithin s _ _, rfl⟩
  · exact skipInstr_canonicalWithin hm hskip
  · exact exec_canonicalWithin hm hexec

/-- A step that does not fault leaves the fault record. -/
theorem step_fault_kept {s t : State} (h : step s = .next t) (hn : t.status ≠ .faulted) : t.fault = s.fault := by
  obtain ⟨-, rfl⟩ | ⟨f, -, rfl⟩ | ⟨hfault, -⟩ := step_fault_cases (step_of_not_running h) h
  · exact absurd rfl hn
  · exact absurd rfl hn
  · exact hfault

/-- A step that halts leaves `skip` clear: it executed HALT (70_reset_and_hazards.md R296). -/
theorem step_halted_skip {s t : State} (h : step s = .next t) (ht : t.status = .halted) : t.skip = false := by
  cases hskip : t.skip with
  | false => rfl
  | true =>
    have hn : t.status ≠ .faulted := by simp [ht]
    obtain ⟨-, -, -, hhalted, -⟩ := statusChangesAsStated
    obtain ⟨-, -, b, hdecode⟩ := hhalted s t h ht
    -- Only a conditional sets `skip`, and a HALT is none.
    obtain ⟨-, a, b', -, hcond⟩ := skipSetOnlyByConditionals s t h hn hskip
    simp [hdecode, ConditionFalse] at hcond

/-- Settles O50: the memory by `step_canonicalWithin`, a new record by `faultRecordNamesCause`, and `skip` by
`step_halted_skip`. -/
theorem stepKeepsInvariant : Obligations.StepKeepsInvariant := by
  intro s t hinv h
  have hs : s.status = .running := step_of_not_running h
  have hnone : s.fault = none := Classical.byContradiction fun hf => absurd (hinv.fault_iff.mpr hf) (by simp [hs])
  obtain ⟨⟨hwf, hwithin⟩, hcap⟩ := step_canonicalWithin ⟨hinv.mem_wf, hinv.mem_within⟩ h
  have hkept : t.status ≠ .faulted → t.fault = none := fun hn => (step_fault_kept h hn).trans hnone
  have hiff : t.status = .faulted ↔ t.fault ≠ none := by
    refine ⟨fun ht hfault => ?_, fun hfault => Classical.byContradiction fun hn => hfault (hkept hn)⟩
    obtain ⟨-, hrecord⟩ := fatalErrorEndsRun
    obtain ⟨r, hr, -⟩ := hrecord s t h ht
    cases hfault.symm.trans hr
  refine ⟨?_, hcap⟩
  exact
    { memWords_pos := hcap ▸ hinv.memWords_pos
      memWords_le := hcap ▸ hinv.memWords_le
      mem_wf := hwf
      mem_within := hwithin
      fault_iff := hiff
      fault_wf := fun r hr => by
        obtain ⟨-, hrwf, -⟩ := faultRecordNamesCause s t r hs h (hiff.mpr (by simp [hr])) hr
        exact hcap ▸ hrwf
      halted_skip := step_halted_skip h }

end Sys2Proof.Machine
end

section
/-! PROOFS of the runs of one to three steps: the skipped instruction, the false conditional, the store that the next
fetch sees, and the call that returns. -/

namespace Sys2Proof.Machine

/-! ## Executing or skipping a given instruction -/

theorem step_eq_exec {s : State} {i : Instr} (hs : s.status = .running) (hk : s.skip = false)
    (hp : s.pc.toNat < s.memWords) (hi : i.wellFormed = true) (hw : s.readMem s.pc = encodeWord i) :
    step s = exec i s :=
  (stepRunsDecodedInstruction s i hs hp hi hw).1 hk

theorem step_eq_skipInstr {s : State} {i : Instr} (hs : s.status = .running) (hk : s.skip = true)
    (hp : s.pc.toNat < s.memWords) (hi : i.wellFormed = true) (hw : s.readMem s.pc = encodeWord i) :
    step s = skipInstr i s :=
  (stepRunsDecodedInstruction s i hs hp hi hw).2 hk

/-! ## The discarded fetches -/

theorem skipExtras_succ_of_inRange {s : State} (hp : s.pc.toNat < s.memWords) (n : Nat) :
    skipExtras (n + 1) s = skipExtras n s.advance := by
  rw [skipExtras, fetchExtra, checkExtra, if_pos hp]
  rfl

theorem skipExtras_succ_of_out_of_range {s : State} (hp : s.memWords ≤ s.pc.toNat) (n : Nat) :
    skipExtras (n + 1) s = .error ⟨.extraWordOutOfRange, some s.pc⟩ := by
  rw [skipExtras, fetchExtra, checkExtra, if_neg (Nat.not_lt.mpr hp)]
  rfl

/-- All extra words in memory: PC moves past them. -/
theorem skipExtras_of_inRange {n : Nat} {s : State}
    (h : ∀ k, k < n → (s.pc + BitVec.ofNat 16 k).toNat < s.memWords) :
    skipExtras n s = .ok (s.setPc (s.pc + BitVec.ofNat 16 n)) := by
  induction n generalizing s with
  | zero => rw [BitVec.add_zero]; rfl
  | succ n ih =>
    have hp : s.pc.toNat < s.memWords := by simpa using h 0 (Nat.succ_pos n)
    have hrest : ∀ k, k < n → (s.advance.pc + BitVec.ofNat 16 k).toNat < s.advance.memWords := fun k hk => by
      rw [State.advance_pc, ← wordOffset_succ]
      exact h (k + 1) (Nat.succ_lt_succ hk)
    rw [skipExtras_succ_of_inRange hp, ih hrest, State.advance_pc, ← wordOffset_succ]
    rfl

/-- The first extra word out of range raises code 2 (60_exceptions.md R263). -/
theorem skipExtras_of_first_out_of_range {n k : Nat} {s : State} (hk : k < n)
    (hout : s.memWords ≤ (s.pc + BitVec.ofNat 16 k).toNat)
    (hbefore : ∀ j, j < k → (s.pc + BitVec.ofNat 16 j).toNat < s.memWords) :
    skipExtras n s = .error ⟨.extraWordOutOfRange, some (s.pc + BitVec.ofNat 16 k)⟩ := by
  induction k generalizing n s with
  | zero =>
    obtain ⟨n, rfl⟩ := Nat.exists_eq_add_one_of_ne_zero (Nat.ne_of_gt hk)
    rw [BitVec.add_zero] at hout ⊢
    exact skipExtras_succ_of_out_of_range hout n
  | succ k ih =>
    obtain ⟨n, rfl⟩ := Nat.exists_eq_add_one_of_ne_zero (Nat.ne_zero_of_lt hk)
    have hp : s.pc.toNat < s.memWords := by simpa using hbefore 0 (Nat.succ_pos k)
    rw [wordOffset_succ] at hout ⊢
    rw [skipExtras_succ_of_inRange hp]
    refine ih (s := s.advance) (Nat.lt_of_succ_lt_succ hk) hout fun j hj => ?_
    rw [State.advance_pc, ← wordOffset_succ]
    exact hbefore (j + 1) (Nat.succ_lt_succ hj)

/-! ## The skipped instruction -/

/-- An instruction of length `n` has `n - 1` extra words. -/
theorem Instr.extraWords_of_length {i : Instr} {n : Nat} (h : i.length = some n) :
    ∃ m, i.extraWords = some m ∧ n = m + 1 := by
  obtain ⟨m, hm, rfl⟩ := Option.map_eq_some_iff.mp h
  exact ⟨m, hm, Nat.add_comm 1 m⟩

theorem skipInstr_of_skipExtras_ok {i : Instr} {s t : State} {m : Nat} (hx : i.extraWords = some m)
    (h : skipExtras m s.advance = .ok t) : skipInstr i s = .next (t.setSkip false) := by
  simp only [skipInstr, hx, h]
  rfl

theorem skipInstr_of_skipExtras_error {i : Instr} {s : State} {m : Nat} {f : FatalError} (hx : i.extraWords = some m)
    (h : skipExtras m s.advance = .error f) : skipInstr i s = .next (raiseFatal s (some (encodeWord i)) f) := by
  simp only [skipInstr, hx, h]
  rfl

/-- Settles O46: no length, every extra word in memory, or a first one that is not. -/
theorem skippedInstructionConsumed : Obligations.SkippedInstructionConsumed := by
  intro s i hs hk hp hi hw
  rw [step_eq_skipInstr hs hk hp hi hw]
  refine ⟨fun hn => ?noLength, fun n hn hin => ?consumed, fun n k hn hpos hlt hout hbefore => ?extraWord⟩
  case noLength => exact endsFaulted_of_eq (skipInstr_of_no_length (Option.map_eq_none_iff.mp hn) s)
  case consumed =>
    obtain ⟨m, hm, rfl⟩ := Instr.extraWords_of_length hn
    have hextras : skipExtras m s.advance = .ok (s.advance.setPc (s.pc + 1 + BitVec.ofNat 16 m)) :=
      skipExtras_of_inRange fun k hk => by
        rw [State.advance_pc, ← wordOffset_succ]
        exact hin (k + 1) (by omega) (by omega)
    rw [skipInstr_of_skipExtras_ok hm hextras, wordOffset_succ]
    rfl
  case extraWord =>
    obtain ⟨m, hm, rfl⟩ := Instr.extraWords_of_length hn
    obtain ⟨k, rfl⟩ := Nat.exists_eq_add_one_of_ne_zero (Nat.ne_zero_of_lt hpos)
    rw [wordOffset_succ] at hout ⊢
    refine endsFaulted_of_eq (skipInstr_of_skipExtras_error hm
      (skipExtras_of_first_out_of_range (s := s.advance) (by omega) hout fun j hj => ?_))
    rw [State.advance_pc, ← wordOffset_succ]
    exact hbefore (j + 1) (by omega) (by omega)

/-! ## The false conditional -/

/-- A skipped instruction that raises no fatal error moves PC past its words and clears `skip`. -/
theorem skipInstr_of_not_faulted {i : Instr} {n : Nat} {s t : State} (hn : i.length = some n)
    (h : skipInstr i s = .next t) (ht : t.status ≠ .faulted) :
    t = (s.setPc (s.pc + BitVec.ofNat 16 n)).setSkip false := by
  obtain ⟨m, hm, rfl⟩ := Instr.extraWords_of_length hn
  obtain ⟨-, rfl⟩ | ⟨addr, -, rfl⟩ | ⟨m', hm', rfl⟩ := skipInstr_cases h
  · exact absurd rfl ht
  · exact absurd rfl ht
  · obtain rfl : m = m' := Option.some.inj (hm.symm.trans hm')
    rw [wordOffset_succ]

/-- Settles O56: the frame of the conditional, then that of the skipped instruction. -/
theorem falseConditionalSkipsOne : Obligations.FalseConditionalSkipsOne := by
  intro a b i n s t u hs hk hp hcond hst ht htk htp hi htw hn htu hu
  have hexec : exec (decode (s.readMem s.pc)) s = .next t :=
    (step_eq_exec hs hk hp (decode_wellFormed _) (encodeWord_decode _).symm).symm.trans hst
  obtain ⟨hregs, hsp, hpc, ho, hmem, -, -⟩ := frameOfConditionals a b _ s t hcond hs hexec (by simp [ht])
  obtain rfl := skipInstr_of_not_faulted hn ((step_eq_skipInstr ht htk htp hi htw).symm.trans htu) (by simp [hu])
  refine ⟨rfl, ?_, hregs, ho, hmem, hsp⟩
  rw [State.setSkip_pc, State.setPc_pc, hpc, BitVec.add_assoc, ← BitVec.ofNat_add]

/-! ## A store and the next fetch -/

/-- An operand that has its extra word at a cell in memory is what that cell's word makes it (40_execution_cycle.md
R146, R147). -/
theorem resolve_at_extra_word {u : State} {v : Word} (hp : u.pc.toNat < u.memWords) (hv : u.readMem u.pc = v) :
    resolve .nextLit u = .ok (.lit v, u.advance) ∧
      (v.toNat < u.memWords → resolve .indNext u = .ok (.mem v, u.advance)) ∧
      ∀ r, (v + u.reg r).toNat < u.memWords → resolve (.indexed r) u = .ok (.mem (v + u.reg r), u.advance) := by
  subst hv
  exact ⟨resolve_of_inRange ⟨fun _ => hp, rfl⟩,
    fun h => resolve_of_inRange ⟨fun _ => hp, decide_eq_true h⟩,
    fun _ h => resolve_of_inRange ⟨fun _ => hp, decide_eq_true h⟩⟩

/-- Settles O55: the stored cell reads as the word stored, and every fetch of the next instruction reads that memory. -/
theorem storeSeenByNextFetch : Obligations.StoreSeenByNextFetch := by
  intro i s t addr v hm hs hk hp hi hw hstored h hn
  have hexec : exec i s = .next t := (step_eq_exec hs hk hp hi hw).symm.trans h
  obtain ⟨hread, haddr, hskip, hcap, hstatus⟩ := exec_stored hm hstored hexec hn
  rw [← hcap] at haddr
  refine ⟨hread, haddr, fun hpc => ?firstWord, fun u hu hpc => ?extraWord⟩
  case firstWord =>
    subst hpc
    have hv : t.readMem t.pc = encodeWord (decode v) := hread.trans (encodeWord_decode v).symm
    exact step_eq_exec (hstatus.trans hs) (hskip.trans hk) haddr (decode_wellFormed v) hv
  case extraWord =>
    -- Neither the fetch of the first word nor operand A's side effects touch memory.
    have hsame : u.memWords = t.memWords ∧ u.readMem addr = t.readMem addr := by
      obtain rfl | ⟨c, rfl⟩ := hu <;> simp
    subst hpc
    exact resolve_at_extra_word (hsame.1.symm ▸ haddr) (hsame.2.trans hread)

/-! ## The call and the return -/

/-- `SET PC, POP` jumps to the word on top of the stack and takes it off. -/
theorem exec_set_pc_pop {s : State} (hsp : s.sp.toNat < s.memWords) :
    exec (.set .pc .pop) s = .next ((s.setSp (s.sp + 1)).setPc (s.readMem s.sp)) := by
  have hr : OperandsInRange .pc .pop s := ⟨⟨nofun, rfl⟩, nofun, decide_eq_true hsp⟩
  exact writing_of_inRange _ _ rfl hr

/-- Settles O57: JSR leaves the return address on top of the stack, and `SET PC, POP` takes it from there. -/
theorem callReturnsToNextInstruction : Obligations.CallReturnsToNextInstruction := by
  intro b s t hm hs hk hp hw hst ht htp htw
  have hexec : exec (.jsr b) s = .next t := (step_eq_exec hs hk hp rfl hw).symm.trans hst
  have hn : t.status ≠ .faulted := by simp [ht]
  obtain ⟨hregs, ho, hsp, hmem, hskip, -, -, hcap, -⟩ := frameOfJsr b s t hs hexec hn
  have htop : t.sp.toNat < t.memWords := by
    rw [hsp, hcap, ← State.advance_sp, ← afterOperand_sp]
    exact (exec_jsr_cases hexec hn).1
  refine ⟨_, (step_eq_exec ht (hskip.trans hk) htp rfl htw).trans (exec_set_pc_pop htop), ht, ?_, ?_, hregs, ho, ?_⟩
  · exact exec_jsr_readMem_sp hm hexec hn
  · rw [State.setPc_sp, State.setSp_sp, hsp, BitVec.sub_add_cancel]
  · intro addr ha
    exact hmem addr (hsp ▸ ha)

end Sys2Proof.Machine
end

section
/-! PROOFS of the pseudocode summary (40_execution_cycle.md): the reading on the raw fields of the instruction word is
the step, part by part: operand classes, discarded extra words, write-backs, conditions, and the body. -/

namespace Sys2Proof.Reference

open Sys2Proof.Machine

/-! ## Operand classes -/

theorem register_index (r : Reg) : register r.index = r := by
  cases r <;> rfl

theorem index_lt (r : Reg) : r.index < 8 := by
  cases r <;> decide

theorem code_reg_toNat (r : Reg) : (OperandClass.reg r).code.toNat = r.index := by
  cases r <;> rfl

theorem code_ind_toNat (r : Reg) : (OperandClass.ind r).code.toNat = 0x08 + r.index := by
  cases r <;> rfl

theorem code_indexed_toNat (r : Reg) : (OperandClass.indexed r).code.toNat = 0x10 + r.index := by
  cases r <;> rfl

/-- `nw` on a class's code is the number of its extra words (30_encoding.md R97). -/
theorem nw_code (c : OperandClass) : nw c.code.toNat = c.extraWords := by
  rw [nw, ← OperandClass.ofCode_code c, OperandClass.extraWords_ofCode, OperandClass.code_ofCode]
  exact ite_congr (propext (by omega)) (fun _ => rfl) (fun _ => rfl)

/-- The literal classes by their codes (30_encoding.md R100). -/
theorem isLiteral_code_iff (c : OperandClass) :
    (c.code.toNat = 0x1f ∨ 0x20 ≤ c.code.toNat) ↔ c.isLiteral = true := by
  rw [← OperandClass.ofCode_code c, isLiteral_ofCode_iff, OperandClass.code_ofCode]
  omega

theorem wrap16_toNat (v : Word) : wrap16 v.toNat = v := by
  rw [wrap16, BitVec.ofNat_toNat, BitVec.setWidth_eq]

/-- A wrapped sum of words, such as an indexed address or an incremented SP. -/
theorem wrap16_add (v v' : Word) : wrap16 (v.toNat + v'.toNat) = v + v' := addResult_eq v v'

/-- The wrapped decrement of SP. -/
theorem ofInt_pred (v : Word) : BitVec.ofInt 16 ((v.toNat : Int) - 1) = v - 1 := subResult_eq v 1

/-- Row by row, the table of R147 on the six-bit code is the table on the class. -/
theorem resolve_code (c : OperandClass) (s : State) : resolve c.code.toNat s = Machine.resolve c s := by
  cases c with
  | reg r =>
    have := index_lt r
    rw [resolve, code_reg_toNat, if_pos (by omega), register_index]
    rfl
  | ind r =>
    have := index_lt r
    rw [resolve, code_ind_toNat, if_neg (by omega), if_pos (by omega), x, Nat.add_sub_cancel_left, register_index]
    rfl
  | indexed r =>
    have := index_lt r
    rw [resolve, code_indexed_toNat, if_neg (by omega), if_neg (by omega), if_pos (by omega), Nat.add_sub_cancel_left]
    simp only [x, register_index, wrap16_add, Machine.resolve, fetchExtra]
    cases checkExtra s <;> rfl
  | pop =>
    have hsp : wrap16 (s.sp.toNat + 1) = s.sp + 1 := wrap16_add s.sp 1
    show resolve 0x18 s = _
    simp only [resolve, Machine.resolve, hsp]
    rfl
  | push =>
    show resolve 0x1a s = _
    simp only [resolve, Machine.resolve, ofInt_pred]
    rfl
  | indNext =>
    show resolve 0x1e s = _
    simp only [resolve, Machine.resolve, fetchExtra]
    cases checkExtra s <;> rfl
  | nextLit =>
    show resolve 0x1f s = _
    simp only [resolve, Machine.resolve, fetchExtra]
    cases checkExtra s <;> rfl
  | lit n =>
    -- None of the eleven conditions that come before the inline literals holds.
    rw [resolve, Asm.litCode_toNat, Nat.add_sub_cancel_left]
    iterate 11 rw [if_neg (by omega)]
    rw [resolve_lit]
    rfl
  | peek | sp | pc | o => rfl

theorem discardExtras_eq (n : Nat) (s : State) : discardExtras n s = skipExtras n s := by
  induction n generalizing s with
  | zero => rfl
  | succ n ih => simp only [discardExtras, skipExtras, ih]

/-! ## Write-backs and conditions on natural numbers -/

section
variable (t : Target) (vA vB : Word) (s : State)

theorem writeBack_set : writeBack 0x1 t vA.toNat vB.toNat s = t.write vB s := by
  rw [writeBack, wrap16_toNat]

theorem writeBack_add : writeBack 0x2 t vA.toNat vB.toNat s =
    resultThenO t (addResult vA vB) (addOverflow vA vB) s := rfl

theorem writeBack_sub : writeBack 0x3 t vA.toNat vB.toNat s =
    resultThenO t (subResult vA vB) (subOverflow vA vB) s := rfl

theorem writeBack_mul : writeBack 0x4 t vA.toNat vB.toNat s =
    resultThenO t (mulResult vA vB) (mulOverflow vA vB) s := by
  rw [mulOverflow, Nat.shiftRight_eq_div_pow]
  rfl

theorem writeBack_div : writeBack 0x5 t vA.toNat vB.toNat s =
    if vB = 0 then resultThenO t 0 0 s else oThenResult t (divResult vA vB) (divOverflow vA vB) s := by
  by_cases hz : vB = 0
  · rw [if_pos hz, hz]
    rfl
  · have hz' : vB.toNat ≠ 0 := fun h => hz (BitVec.eq_of_toNat_eq h)
    rw [writeBack, if_neg hz, if_neg hz', divResult, divOverflow, if_neg hz, if_neg hz, Nat.shiftLeft_eq]
    rfl

theorem writeBack_mod : writeBack 0x6 t vA.toNat vB.toNat s = t.write (modResult vA vB) s := by
  by_cases hz : vB = 0
  · rw [modResult, if_pos hz, hz]
    rfl
  · have hz' : vB.toNat ≠ 0 := fun h => hz (BitVec.eq_of_toNat_eq h)
    rw [writeBack, if_neg hz', modResult, if_neg hz]

theorem writeBack_shl : writeBack 0x7 t vA.toNat vB.toNat s =
    oThenResult t (shlResult vA vB) (shlOverflow vA vB) s := by
  rw [shlResult, shlOverflow, Nat.shiftRight_eq_div_pow, Nat.shiftLeft_eq]
  rfl

theorem writeBack_shr : writeBack 0x8 t vA.toNat vB.toNat s =
    oThenResult t (shrResult vA vB) (shrOverflow vA vB) s := by
  rw [shrResult, shrOverflow, Nat.shiftRight_eq_div_pow, Nat.shiftRight_eq_div_pow, Nat.shiftLeft_eq]
  rfl

theorem writeBack_and : writeBack 0x9 t vA.toNat vB.toNat s = t.write (vA &&& vB) s := by
  rw [writeBack, ← BitVec.toNat_and, wrap16_toNat]

theorem writeBack_bor : writeBack 0xa t vA.toNat vB.toNat s = t.write (vA ||| vB) s := by
  rw [writeBack, ← BitVec.toNat_or, wrap16_toNat]

theorem writeBack_xor : writeBack 0xb t vA.toNat vB.toNat s = t.write (vA ^^^ vB) s := by
  show t.write (wrap16 (vA.toNat ^^^ vB.toNat)) s = _
  rw [← BitVec.toNat_xor, wrap16_toNat]

end

theorem toNat_beq (v v' : Word) : (v.toNat == v'.toNat) = (v == v') := by
  rw [Bool.eq_iff_iff, beq_iff_eq, beq_iff_eq, BitVec.toNat_inj]

/-! ## The body of the step -/

/-- Opcode 0 with a non-basic opcode that is neither HALT nor JSR raises code 5, executed or skipped. -/
theorem body_undefined {a : Nat} (b : Nat) (s : State) (h0 : a ≠ 0x00) (h1 : a ≠ 0x01) :
    body 0 a b s = .error ⟨.undefinedNonBasic, none⟩ := by
  have hd : 0 = 0 ∧ a ≠ 0x00 ∧ a ≠ 0x01 := ⟨rfl, h0, h1⟩
  rw [body, if_pos hd, if_pos hd, ite_self]

theorem body_skip {op a : Nat} (b : Nat) {s : State} (hk : s.skip = true) (hd : ¬ (op = 0 ∧ a ≠ 0x00 ∧ a ≠ 0x01)) :
    body op a b s.advance =
      (do
        let t ← skipExtras ((if op ≠ 0 then nw a else 0) + nw b) s.advance
        pure (t.setSkip false)) := by
  rw [body, State.advance_skip, if_pos hk, if_neg hd, discardExtras_eq]

/-- A write of a literal is found before any operand is resolved (60_exceptions.md R265). -/
theorem body_literal {op : Nat} {a : OperandClass} (b : Nat) {s : State} (hk : s.skip = false)
    (hop : 0x1 ≤ op ∧ op ≤ 0xb) (ha : a.isLiteral = true) :
    body op a.code.toNat b s.advance = .error ⟨.writeToLiteral, none⟩ := by
  rw [body, if_neg (by simp [hk]), if_neg (by omega), if_pos ⟨hop, (isLiteral_code_iff a).mpr ha⟩]

/-- The executed basic instruction. -/
theorem body_basic {op : Nat} {a : OperandClass} (b : OperandClass) {s : State} (hk : s.skip = false) (hop : op ≠ 0)
    (ha : ¬ ((0x1 ≤ op ∧ op ≤ 0xb) ∧ a.isLiteral = true)) :
    body op a.code.toNat b.code.toNat s.advance =
      (do
        let p ← operands a b s
        if op ≤ 0xb then pure (writeBack op p.tA p.vA.toNat p.vB.toNat p.st)
        else pure (p.st.setSkip (!cond op p.vA.toNat p.vB.toNat))) := by
  rw [← isLiteral_code_iff] at ha
  rw [body, if_neg (by simp [hk]), if_neg (by omega), if_neg ha, if_pos hop, operands]
  simp only [resolve_code]
  cases Machine.resolve a s.advance with
  | error f => rfl
  | ok pA =>
    simp only [bind, Except.bind]
    cases Machine.resolve b pA.2 with
    | error f => rfl
    | ok pB => rfl

/-- The executed non-basic instruction: HALT for opcode 0, JSR for opcode 1 (44_nonbasic.md R241, R242). -/
theorem body_nonBasic {a : Nat} (b : OperandClass) {s : State} (hk : s.skip = false) (ha : a = 0x00 ∨ a = 0x01) :
    body 0 a b.code.toNat s.advance =
      (do
        let (vB, sB) ← operandB b s
        if a = 0x00 then pure (sB.setStatus .halted)
        else do
          let sP := sB.setSp (sB.sp - 1)
          checkAddr sP sP.sp
          pure ((sP.writeMem sP.sp sP.pc).setPc vB)) := by
  rw [body, if_neg (by simp [hk]), if_neg (by omega), if_neg (by omega), if_neg (by omega), operandB]
  simp only [resolve_code, ofInt_pred]
  cases Machine.resolve b s.advance <;> rfl

/-! ## The body on the fields of a word -/

/-- The body on the fields of an instruction word (30_encoding.md R91). -/
def wordBody (w : Word) (s : State) : Except FatalError State :=
  body (opField w).toNat (aField w).toNat (bField w).toNat s

theorem wordBody_of_basic {i : Instr} {op : BitVec 4} {a b : OperandClass} (h : i.form = .basic op a b) (s : State) :
    wordBody (encodeWord i) s = body op.toNat a.code.toNat b.code.toNat s := by
  simp [wordBody, encodeWord, h]

theorem wordBody_of_nonBasic {i : Instr} {n : BitVec 6} {b : OperandClass} (h : i.form = .nonBasic n b) (s : State) :
    wordBody (encodeWord i) s = body 0 n.toNat b.code.toNat s := by
  simp [wordBody, encodeWord, h]

theorem wordBody_of_undefined {i : Instr} {n b : BitVec 6} (h : i.form = .undefined n b) (s : State) :
    wordBody (encodeWord i) s = body 0 n.toNat b.toNat s := by
  simp [wordBody, encodeWord, h]

/-- An instruction that writes operand A is the body on its word, if its effect is the opcode's write-back. -/
theorem writing_eq_wordBody {i : Instr} {op : BitVec 4} {a b : OperandClass} {s : State} {effect : Operands → State}
    (hform : i.form = .basic op a b) (hk : s.skip = false) (hop : 0x1 ≤ op.toNat ∧ op.toNat ≤ 0xb)
    (heffect : ∀ p, writeBack op.toNat p.tA p.vA.toNat p.vB.toNat p.st = effect p) :
    writing i a b s effect = complete i s (wordBody (encodeWord i) s.advance) := by
  rw [wordBody_of_basic hform]
  cases ha : a.isLiteral with
  | true =>
    rw [writing_of_literal i b s effect ha, body_literal _ hk hop ha]
    rfl
  | false =>
    rw [body_basic b hk (by omega) (by simp [ha])]
    simp only [if_pos hop.2, heffect, writing, checkWritable, ha]
    rfl

/-- A conditional is the body on its word, if its condition is the opcode's. -/
theorem conditional_eq_wordBody {i : Instr} {op : BitVec 4} {a b : OperandClass} {s : State}
    {condition : Word → Word → Bool} (hform : i.form = .basic op a b) (hk : s.skip = false) (hop : 0xb < op.toNat)
    (hcond : ∀ vA vB : Word, cond op.toNat vA.toNat vB.toNat = condition vA vB) :
    conditional i a b s condition = complete i s (wordBody (encodeWord i) s.advance) := by
  rw [wordBody_of_basic hform, body_basic b hk (by omega) (by omega)]
  simp only [if_neg (Nat.not_le.mpr hop), hcond]
  rfl

/-- Executing an instruction is the body on its word. -/
theorem exec_eq_wordBody {i : Instr} {s : State} (hi : i.wellFormed = true) (hk : s.skip = false) :
    exec i s = complete i s (wordBody (encodeWord i) s.advance) := by
  cases i with
  | set a b => exact writing_eq_wordBody rfl hk (by decide) fun _ => writeBack_set _ _ _ _
  | add a b => exact writing_eq_wordBody rfl hk (by decide) fun _ => writeBack_add _ _ _ _
  | sub a b => exact writing_eq_wordBody rfl hk (by decide) fun _ => writeBack_sub _ _ _ _
  | mul a b => exact writing_eq_wordBody rfl hk (by decide) fun _ => writeBack_mul _ _ _ _
  | div a b => exact writing_eq_wordBody rfl hk (by decide) fun _ => writeBack_div _ _ _ _
  | mod a b => exact writing_eq_wordBody rfl hk (by decide) fun _ => writeBack_mod _ _ _ _
  | shl a b => exact writing_eq_wordBody rfl hk (by decide) fun _ => writeBack_shl _ _ _ _
  | shr a b => exact writing_eq_wordBody rfl hk (by decide) fun _ => writeBack_shr _ _ _ _
  | and a b => exact writing_eq_wordBody rfl hk (by decide) fun _ => writeBack_and _ _ _ _
  | bor a b => exact writing_eq_wordBody rfl hk (by decide) fun _ => writeBack_bor _ _ _ _
  | xor a b => exact writing_eq_wordBody rfl hk (by decide) fun _ => writeBack_xor _ _ _ _
  | ife a b => exact conditional_eq_wordBody (i := .ife a b) rfl hk (by decide) fun vA vB => toNat_beq vA vB
  | ifn a b =>
    exact conditional_eq_wordBody (i := .ifn a b) rfl hk (by decide) fun vA vB => congrArg not (toNat_beq vA vB)
  | ifg a b => exact conditional_eq_wordBody (i := .ifg a b) rfl hk (by decide) fun _ _ => rfl
  | ifb a b =>
    exact conditional_eq_wordBody (i := .ifb a b) rfl hk (by decide) fun vA vB => congrArg not (toNat_beq (vA &&& vB) 0)
  | jsr b =>
    rw [wordBody_of_nonBasic rfl, body_nonBasic (a := (0x01#6).toNat) b hk (.inr rfl)]
    rfl
  | halt b =>
    rw [wordBody_of_nonBasic rfl, body_nonBasic (a := (0x00#6).toNat) b hk (.inl rfl)]
    rfl
  | undefinedNonBasic n b =>
    have hn : 2 ≤ n.toNat := of_decide_eq_true hi
    rw [wordBody_of_undefined rfl, body_undefined _ _ (by omega) (by omega)]
    rfl

theorem nw_toNat (c : BitVec 6) : nw c.toNat = (OperandClass.ofCode c).extraWords := by
  rw [← nw_code, OperandClass.code_ofCode]

/-- Skipping an instruction is the body on its word. -/
theorem skipInstr_eq_wordBody {w : Word} {s : State} (hk : s.skip = true) :
    skipInstr (decode w) s = complete (decode w) s (wordBody w s.advance) := by
  by_cases hop : opField w = 0
  · have hzero : (opField w).toNat = 0 := congrArg BitVec.toNat hop
    by_cases ha : (aField w).toNat < 2
    · have hx : (decode w).extraWords = some (nw (bField w).toNat) := by
        rw [Instr.extraWords, decode_form_nonBasic hop ha, nw_toNat]
      rw [skipInstr, hx, wordBody, hzero, body_skip _ hk (by omega), if_neg (by omega), Nat.zero_add]
    · have hx : (decode w).extraWords = none := by
        rw [Instr.extraWords, decode_form_undefined hop (Nat.le_of_not_lt ha)]
      rw [skipInstr, hx, wordBody, hzero, body_undefined _ _ (by omega) (by omega)]
  · have hpos : (opField w).toNat ≠ 0 := fun h => hop (BitVec.eq_of_toNat_eq h)
    have hx : (decode w).extraWords = some (nw (aField w).toNat + nw (bField w).toNat) := by
      rw [Instr.extraWords, decode_form_basic hop, nw_toNat, nw_toNat]
    rw [skipInstr, hx, wordBody, body_skip _ hk (by omega), if_pos hpos]

/-- The summary's step on an instruction word that was fetched. -/
theorem step_of_fetched {s : State} (hs : s.status = .running) (hp : s.pc.toNat < s.memWords) :
    Reference.step s = complete (decode (s.readMem s.pc)) s (wordBody (s.readMem s.pc) s.advance) := by
  have hadvance : s.setPc (wrap16 (s.pc.toNat + 1)) = s.advance := congrArg s.setPc (wrap16_add s.pc 1)
  rw [step, hs]
  simp only [if_neg (Nat.not_le.mpr hp), ge_iff_le, hadvance, ← opField_toNat, ← aField_toNat, ← bField_toNat, complete,
    encodeWord_decode]
  rfl

/-- Settles O58: outside a run and on a failed fetch by definition; else `exec_eq_wordBody` and
`skipInstr_eq_wordBody`. -/
theorem stepMatchesPseudocode : Obligations.StepMatchesPseudocode := by
  intro s
  cases hs : s.status with
  | halted | faulted => rw [Machine.step, Reference.step, hs]
  | running =>
    by_cases hp : s.pc.toNat < s.memWords
    · rw [Machine.step_of_fetched hs hp, step_of_fetched hs hp]
      cases hk : s.skip with
      | true => exact skipInstr_eq_wordBody hk
      | false =>
        have hexec := exec_eq_wordBody (decode_wellFormed (s.readMem s.pc)) hk
        rwa [encodeWord_decode] at hexec
    · have hout : s.memWords ≤ s.pc.toNat := Nat.le_of_not_lt hp
      rw [step_of_fetch_out_of_range hs hout, Reference.step, hs]
      exact (if_pos hout).symm

end Sys2Proof.Reference
end
